-- ==== Sys2Proof/Word.lean ====
section
/-! DEFINITION. The value types of the CORE: the 16-bit word (R30), the 8-bit character (R8, R230) and the number of a
general register (R31). -/

namespace Sys2Proof

/-- The 16-bit unsigned word, the CORE's only value type (R30). -/
abbrev Word := BitVec 16

/-- A character on one of the two ports: a raw 8-bit byte (R8, R230). -/
abbrev Byte := BitVec 8

/-- The number of a general register, 0..7 (R31). An index outside the range cannot arise (R31), so the type has none. -/
abbrev RegIndex := Fin 8

end Sys2Proof
end

