-- ==== Sys2Proof/Config.lean ====
section
/-! DEFINITION. The parameters of this hardware (R8) and the one parameter the spec leaves open, STACK_CAPACITY (R9). -/

namespace Sys2Proof

namespace Config

/-- MEM_WORDS: the memory has 32768 words, addresses 0..32767 (R8, R43). -/
@[reducible, simp] def memWords : Nat := 32768

/-- MODULUS: ADD and MULT reduce modulo 32768 (R8, R200). -/
@[reducible, simp] def modulus : Nat := 32768

/-- The first register reference; words below it are literals (R8, R94). -/
@[reducible, simp] def regBase : Nat := 32768

/-- The first word that is neither a literal nor a register reference (R8, R94). -/
@[reducible, simp] def invalidBase : Nat := 32776

/-- The number of opcodes; an opcode word of 22 or more is illegal (R8, R98). -/
@[reducible, simp] def opcodeCount : Nat := 22

end Config

/-- STACK_CAPACITY (R9): unbounded, the source's contract and the default, or a number of words. -/
inductive StackCapacity where
  | unbounded
  | words (k : Nat)
deriving DecidableEq, Repr

/-- What an implementation fixes. It is fixed for the machine: no step and no host request changes it.
DESIGN CHOICE (safe, log 5): the machine's state carries it, so that a statement about every state holds for every capacity. -/
structure Config where
  stackCapacity : StackCapacity
deriving DecidableEq, Repr

namespace Config

/-- The configuration State.reset has: R9 calls `unbounded` the default. -/
def default : Config := ⟨.unbounded⟩

/-- A finite capacity is a POSITIVE number of words (R9). -/
@[reducible] def Legal (c : Config) : Prop :=
  match c.stackCapacity with
  | .unbounded => True
  | .words k => 0 < k

end Config

end Sys2Proof
end

