-- ==== Sys2Proof/Syntax.lean ====
section
/-! DEFINITION. The instruction set as syntax: operand words by class (R94), the six formats (R92), the 22 opcodes (R96)
and the instructions, one constructor per row of spec/opcode_table.json. -/

namespace Sys2Proof

/-- An operand word after the opcode, by the class R94 gives it. An operand keeps its raw word (`Operand.word` in
Decode.lean), because a fault reports it (R241). -/
inductive Operand where
  /-- 0..32767: a literal of 15 bits (R94, R95). -/
  | lit (n : BitVec 15)
  /-- 32768..32775: a reference to register `i` (R94). -/
  | reg (i : RegIndex)
  /-- 32776..65535: no meaning; the slot that holds it faults (R94, R99). -/
  | invalid (w : Word)
deriving DecidableEq, Repr

/-- The two kinds of operand slot (R93). -/
inductive SlotKind where
  | value
  | destination
deriving DecidableEq, Repr

/-- The six instruction formats (R92). -/
inductive Format where
  | f0 | fv | fd | fvv | fdv | fdvv
deriving DecidableEq, Repr

/-- The operand kinds of a format, in the order a, b, c (R92). -/
def Format.kinds : Format → List SlotKind
  | .f0 => []
  | .fv => [.value]
  | .fd => [.destination]
  | .fvv => [.value, .value]
  | .fdv => [.destination, .value]
  | .fdvv => [.destination, .value, .value]

/-- The 22 opcodes in the order of their numbers (R96). -/
inductive Opcode where
  | halt | set | push | pop | eq | gt | jmp | jt | jf | add | mult | mod | and | or | not | rmem | wmem | call | ret
  | out | inp | noop
deriving DecidableEq, Repr

/-- The opcode map's format column (R92, R96). -/
def Opcode.format : Opcode → Format
  | .halt | .ret | .noop => .f0
  | .push | .jmp | .call | .out => .fv
  | .pop | .inp => .fd
  | .jt | .jf | .wmem => .fvv
  | .set | .not | .rmem => .fdv
  | .eq | .gt | .add | .mult | .mod | .and | .or => .fdvv

/-- The instructions with their operands in the order a, b, c; operands are kept as classified words, legal or not, because
the opcode alone selects the instruction (R97) and an illegal operand is a fault of the instruction's step (R99, R137). -/
inductive Instr where
  | halt
  | set (a b : Operand)
  | push (a : Operand)
  | pop (a : Operand)
  | eq (a b c : Operand)
  | gt (a b c : Operand)
  | jmp (a : Operand)
  | jt (a b : Operand)
  | jf (a b : Operand)
  | add (a b c : Operand)
  | mult (a b c : Operand)
  | mod (a b c : Operand)
  | and (a b c : Operand)
  | or (a b c : Operand)
  | not (a b : Operand)
  | rmem (a b : Operand)
  | wmem (a b : Operand)
  | call (a : Operand)
  | ret
  | out (a : Operand)
  | inp (a : Operand)
  | noop
deriving DecidableEq, Repr

namespace Instr

/-- The opcode of an instruction. -/
def opcode : Instr → Opcode
  | .halt => .halt
  | .set _ _ => .set
  | .push _ => .push
  | .pop _ => .pop
  | .eq _ _ _ => .eq
  | .gt _ _ _ => .gt
  | .jmp _ => .jmp
  | .jt _ _ => .jt
  | .jf _ _ => .jf
  | .add _ _ _ => .add
  | .mult _ _ _ => .mult
  | .mod _ _ _ => .mod
  | .and _ _ _ => .and
  | .or _ _ _ => .or
  | .not _ _ => .not
  | .rmem _ _ => .rmem
  | .wmem _ _ => .wmem
  | .call _ => .call
  | .ret => .ret
  | .out _ => .out
  | .inp _ => .inp
  | .noop => .noop

/-- The operands of an instruction, in the order a, b, c. -/
def operands : Instr → List Operand
  | .halt | .ret | .noop => []
  | .push a | .pop a | .jmp a | .call a | .out a | .inp a => [a]
  | .set a b | .jt a b | .jf a b | .not a b | .rmem a b | .wmem a b => [a, b]
  | .eq a b c | .gt a b c | .add a b c | .mult a b c | .mod a b c | .and a b c | .or a b c => [a, b, c]

/-- The operand slots: each operand with the kind its format gives it (R92, R93). -/
def slots (i : Instr) : List (SlotKind × Operand) :=
  i.opcode.format.kinds.zip i.operands

/-- Instruction length in words: 1 + the number of operands (R91). -/
def length (i : Instr) : Nat :=
  1 + i.opcode.format.kinds.length

end Instr

end Sys2Proof
end

