-- ==== Sys2Proof/WellFormed.lean ====
section
/-! DEFINITION. Which terms of Syntax.lean stand for an encoding: an operand written as invalid must carry a word that is
neither a literal nor a register reference (R94). Every word has exactly one well-formed operand, so every sequence of
words has at most one well-formed instruction. Well-formed is not legal: a well-formed instruction may hold an operand that
its step faults on (R99). -/

namespace Sys2Proof

/-- `invalid w` is a term for a word of 32776 or more only (R94). -/
@[reducible] def Operand.WellFormed : Operand → Prop
  | .lit _ => True
  | .reg _ => True
  | .invalid w => Config.invalidBase ≤ w.toNat

/-- Every operand is well-formed. -/
@[reducible] def Instr.WellFormed : Instr → Prop
  | .halt | .ret | .noop => True
  | .push a | .pop a | .jmp a | .call a | .out a | .inp a => a.WellFormed
  | .set a b | .jt a b | .jf a b | .not a b | .rmem a b | .wmem a b => a.WellFormed ∧ b.WellFormed
  | .eq a b c | .gt a b c | .add a b c | .mult a b c | .mod a b c | .and a b c | .or a b c =>
    a.WellFormed ∧ b.WellFormed ∧ c.WellFormed

end Sys2Proof
end

