-- ==== Sys2Proof/Decode.lean ====
section
/-! DEFINITION. The operand decoder's classification (R94), the opcode map (R96, R97), the decoder over words and over
image bytes, and after it the encoder, written from the same tables. Decoding is total: it answers an instruction and the
words after it, or rejects by name. -/

namespace Sys2Proof

/-! ### Operand words -/

/-- The class of an operand word (R94): literal, register reference with index `w[2:0]`, or invalid. DESIGN CHOICE (unsafe,
log 17): so is an operand of 32768 or more in the text of a rule, such as 32770 in R170's corner case, which is r2. -/
def Operand.ofWord (w : Word) : Operand :=
  if w.toNat < Config.regBase then .lit (w.setWidth 15)
  else if w.toNat < Config.invalidBase then .reg (Fin.ofNat 8 w.toNat)
  else .invalid w

/-- The raw word of an operand (R94): a literal is zero-extended (R95), a reference to register `i` is `32768 + i`. -/
def Operand.word : Operand → Word
  | .lit n => n.setWidth 16
  | .reg i => BitVec.ofNat 16 (Config.regBase + i.val)
  | .invalid w => w

/-! ### Opcode words -/

/-- The opcode map: the whole 16-bit opcode word selects the instruction (R96, R97); 22 and above select none (R98). -/
def Opcode.ofWord (w : Word) : Option Opcode :=
  match w.toNat with
  | 0 => some .halt
  | 1 => some .set
  | 2 => some .push
  | 3 => some .pop
  | 4 => some .eq
  | 5 => some .gt
  | 6 => some .jmp
  | 7 => some .jt
  | 8 => some .jf
  | 9 => some .add
  | 10 => some .mult
  | 11 => some .mod
  | 12 => some .and
  | 13 => some .or
  | 14 => some .not
  | 15 => some .rmem
  | 16 => some .wmem
  | 17 => some .call
  | 18 => some .ret
  | 19 => some .out
  | 20 => some .inp
  | 21 => some .noop
  | _ => none

/-- The opcode's number, the value of its opcode word (R96). -/
def Opcode.word : Opcode → Word
  | .halt => 0
  | .set => 1
  | .push => 2
  | .pop => 3
  | .eq => 4
  | .gt => 5
  | .jmp => 6
  | .jt => 7
  | .jf => 8
  | .add => 9
  | .mult => 10
  | .mod => 11
  | .and => 12
  | .or => 13
  | .not => 14
  | .rmem => 15
  | .wmem => 16
  | .call => 17
  | .ret => 18
  | .out => 19
  | .inp => 20
  | .noop => 21

/-- The instruction of an opcode with the operands a, b, c; an opcode takes the first ones its format has (R92). -/
def Opcode.instr : Opcode → Operand → Operand → Operand → Instr
  | .halt, _, _, _ => .halt
  | .set, a, b, _ => .set a b
  | .push, a, _, _ => .push a
  | .pop, a, _, _ => .pop a
  | .eq, a, b, c => .eq a b c
  | .gt, a, b, c => .gt a b c
  | .jmp, a, _, _ => .jmp a
  | .jt, a, b, _ => .jt a b
  | .jf, a, b, _ => .jf a b
  | .add, a, b, c => .add a b c
  | .mult, a, b, c => .mult a b c
  | .mod, a, b, c => .mod a b c
  | .and, a, b, c => .and a b c
  | .or, a, b, c => .or a b c
  | .not, a, b, _ => .not a b
  | .rmem, a, b, _ => .rmem a b
  | .wmem, a, b, _ => .wmem a b
  | .call, a, _, _ => .call a
  | .ret, _, _, _ => .ret
  | .out, a, _, _ => .out a
  | .inp, a, _, _ => .inp a
  | .noop, _, _, _ => .noop

/-! ### The decoder -/

/-- Why a sequence of words does not begin with an instruction. -/
inductive DecodeError where
  /-- There is no word at all. -/
  | noWord
  /-- The opcode word is 22 or more (R98); no operand is looked at (R101). -/
  | invalidOpcode (w : Word)
  /-- The opcode is legal and an operand word is missing. -/
  | truncated (o : Opcode)
deriving DecidableEq, Repr

/-- Decode the instruction at the head of a sequence of words; answer it with the words after it. The length comes from
the opcode word alone (R91, R101), and no operand's value rejects it (R97): an illegal operand is decoded as what it is and
faults in its instruction's step (R99). -/
def decode : List Word → Except DecodeError (Instr × List Word)
  | [] => .error .noWord
  | w :: ws =>
    match Opcode.ofWord w with
    | none => .error (.invalidOpcode w)
    | some o =>
      let n := o.format.kinds.length
      let operand k := Operand.ofWord (ws.getD k 0)
      if ws.length < n then .error (.truncated o)
      else .ok (o.instr (operand 0) (operand 1) (operand 2), ws.drop n)

/-- The words of an image: byte `2i` is the low half and byte `2i+1` the high half of word `i` (R63, R285); a last odd byte
is ignored (R286). -/
def wordsOfBytes : List Byte → List Word
  | lo :: hi :: rest => BitVec.ofNat 16 (lo.toNat + 256 * hi.toNat) :: wordsOfBytes rest
  | _ => []

/-- Decode image bytes: total on any bytes. -/
def decodeBytes (bytes : List Byte) : Except DecodeError (Instr × List Word) :=
  decode (wordsOfBytes bytes)

/-! ### The encoder -/

/-- The words of an instruction: its opcode word, then its operand words (R90, R92, R96). -/
def encode (i : Instr) : List Word :=
  i.opcode.word :: i.operands.map Operand.word

/-- The image bytes of words, the low half first (R63, R285). -/
def bytesOfWords : List Word → List Byte
  | [] => []
  | w :: ws => BitVec.ofNat 8 (w.toNat % 256) :: BitVec.ofNat 8 (w.toNat / 256) :: bytesOfWords ws

/-! ### Words numbered as the opcode table numbers them -/

/-- The four words of an instruction whose bits are `w`: bit 0 is the least significant bit of the first word, a later
word's bits count on from it, and every bit from `nbits` up is 0. Four words are the longest instruction (R91). -/
def tableWords (nbits w : Nat) : List Word :=
  let bits := w % 2 ^ nbits
  [BitVec.ofNat 16 bits, BitVec.ofNat 16 (bits / 2 ^ 16), BitVec.ofNat 16 (bits / 2 ^ 32), BitVec.ofNat 16 (bits / 2 ^ 48)]

/-- The instruction the decoder reads from those words. -/
def decodeTableWord (nbits w : Nat) : Option Instr :=
  match decode (tableWords nbits w) with
  | .ok (i, _) => some i
  | .error _ => none

end Sys2Proof
end

