-- ==== Sys2Proof/Machine/State.lean ====
section
/-! DEFINITION. The machine's state as plain data (R52, and R50 for the host's records), its value after reset (R51, R280),
and the two reasons a step could stop without a next state. -/

namespace Sys2Proof.Machine

/-- One cell of memory: a word address and the word it holds. Memory holds words, not bytes (R60, R63): log 6. -/
abbrev MemCell := Nat × Word

/-- Memory in canonical form (`Memory.wf` in Ops.lean): addresses strictly rising, and no cell that holds 0, which is what
an unlisted address reads as (R43). -/
abbrev Memory := List MemCell

/-- The run state STATUS holds (R45). -/
inductive Status where
  | running
  | halted
  | retHalted
  | faulted
deriving DecidableEq, Repr

/-- The causes FAULT_CAUSE holds (R241), with `none` for no fault. Codes 11..15 are never written (R46). -/
inductive FaultCause where
  | none
  | invalidOpcode
  | invalidOperand
  | invalidDestination
  | invalidRegisterValue
  | fetchOutOfBounds
  | dataOutOfBounds
  | stackUnderflow
  | divideByZero
  | inputEof
  | stackOverflow
deriving DecidableEq, Repr

/-- The machine's state: the core's state exactly as R52 lists it, then the host's records that R50 and R268 keep beside it
(log 10), then the parameter of R9 (log 5). -/
structure State where
  /-- Memory, 32768 words (R43). -/
  mem : Memory
  /-- The general registers R[0]..R[7] (R31). -/
  regs : Vector Word 8
  /-- The program counter (R35). -/
  pc : Word
  /-- The one stack, its top at the end (R38, R39, R52). -/
  stack : List Word
  /-- STATUS (R45). -/
  status : Status
  /-- FAULT_CAUSE (R46). -/
  faultCause : FaultCause
  /-- FAULT_PC (R47). -/
  faultPc : Word
  /-- FAULT_INFO (R48). -/
  faultInfo : Word
  /-- The host's record of the output, oldest byte first (R50, R268). -/
  hostOutput : List Byte
  /-- The input bytes the host offers, the next one first (R50, R268). -/
  hostInput : List Byte
  /-- Has the host signalled end-of-input? It then follows the last byte of `hostInput` (R268). -/
  hostInputEnded : Bool
  /-- Does the output port take a byte now (R232, R268)? The model's own field: log 3. -/
  hostOutputReady : Bool
  /-- Has the host made a step request that has not returned, because its instruction waits (R139, R232)? The host port keeps
  it (`hostStep` in HostPort.lean); no instruction and no step reads or writes it. The model's own field: log 18. -/
  stepPending : Bool
  /-- The parameters of the implementation (R9). -/
  cfg : Config
deriving DecidableEq, Repr

/-- The reasons a step stops with no next state: there is none. Every fault and every termination the spec names leaves a
state it describes (R244 to R248), so the model answers that next state (log 1; safe: nothing is proved by stopping). -/
inductive Fault where
deriving DecidableEq, Repr

/-- The reasons the model gives an instruction no meaning. -/
inductive Refusal where
  /-- Raised by no arm of exec: all 22 opcodes have their meaning. It would be safe: nothing is said of such a step. -/
  | notModelled (mnemonic : String)
deriving DecidableEq, Repr

/-- What exec and step answer. -/
abbrev Outcome := Host.Outcome State Fault Refusal

/-- The machine right after reset (R51, R280). The spec gives every value of the core's own state. DESIGN CHOICE (unsafe,
logs 3, 4, 5): no input supplied and none ended, the output port ready, the stack unbounded. No step is in progress: log 18. -/
def State.reset : State where
  mem := []
  regs := Vector.replicate 8 0
  pc := 0
  stack := []
  status := .running
  faultCause := .none
  faultPc := 0
  faultInfo := 0
  hostOutput := []
  hostInput := []
  hostInputEnded := false
  hostOutputReady := true
  stepPending := false
  cfg := Config.default

end Sys2Proof.Machine
end

