-- ==== Sys2Proof/Machine/Ops.lean ====
section
/-! DEFINITION. The named operations over memory, the register file, the stack, the program counter, the status registers
and the character ports, and the ONE operation that takes a fault (R246). Every meaning is written over these. -/

namespace Sys2Proof.Machine

/-! ### Memory (R60 to R65) -/

/-- The word an address holds; an unlisted address holds 0 (R43, R71). -/
def Memory.peek : Memory → Nat → Word
  | [], _ => 0
  | (k, w) :: rest, a => if k = a then w else Memory.peek rest a

/-- Set the word of an address and keep the canonical form: 0 removes the cell. -/
def Memory.poke : Memory → Nat → Word → Memory
  | [], a, v => if v = 0 then [] else [(a, v)]
  | (k, w) :: rest, a, v =>
    if a < k then (if v = 0 then (k, w) :: rest else (a, v) :: (k, w) :: rest)
    else if a = k then (if v = 0 then rest else (a, v) :: rest)
    else (k, w) :: Memory.poke rest a v

/-- MemRead: the word at an address, none outside 0..32767 (R11, R62). -/
def Memory.read (m : Memory) (a : Nat) : Option Word :=
  if a < Config.memWords then some (m.peek a) else none

/-- MemWrite: the memory after a write, none outside 0..32767 (R11, R62). -/
def Memory.write (m : Memory) (a : Nat) (v : Word) : Option Memory :=
  if a < Config.memWords then some (m.poke a v) else none

/-- Every cell lies at or above `lo` and inside the address space, the addresses rise strictly, and no cell holds 0. -/
def Memory.wfFrom : Nat → Memory → Bool
  | _, [] => true
  | lo, (k, w) :: rest => decide (lo ≤ k) && decide (k < Config.memWords) && decide (w ≠ 0) && Memory.wfFrom (k + 1) rest

/-- The canonical form: equal memories are equal lists. -/
def Memory.wf (m : Memory) : Bool :=
  Memory.wfFrom 0 m

/-- Write words at consecutive addresses; a word that would fall outside the address space is dropped. -/
def Memory.pokeAll : Memory → Nat → List Word → Memory
  | m, _, [] => m
  | m, a, w :: ws => Memory.pokeAll (if a < Config.memWords then m.poke a w else m) (a + 1) ws

/-! ### Registers (R31 to R34) -/

/-- R[i]. -/
def State.readReg (s : State) (i : RegIndex) : Word :=
  s.regs[i]

/-- R[i] <- v: the whole word, with no check (R34, R128). -/
def State.writeReg (s : State) (i : RegIndex) (v : Word) : State :=
  { s with regs := s.regs.set i v }

/-! ### Program counter (R35, R36, R134, R135) -/

/-- pc <- pc + n, from the opcode's own address. In a step the sum is at most 32768 and fits (R135). -/
def State.advance (s : State) (n : Nat) : State :=
  { s with pc := s.pc + BitVec.ofNat 16 n }

/-- pc <- t: any word; an address out of range faults at the next fetch (R36, R186). -/
def State.jump (s : State) (t : Word) : State :=
  { s with pc := t }

/-! ### The stack (R38 to R42) -/

/-- Push(v): append the whole word at the top (R11, R42). -/
def State.push (s : State) (v : Word) : State :=
  { s with stack := s.stack ++ [v] }

/-- Pop(): the top word and the state without it; none when StackEmpty() (R11, R40). -/
def State.pop? (s : State) : Option (Word × State) :=
  match s.stack.getLast? with
  | none => none
  | some v => some (v, { s with stack := s.stack.dropLast })

/-- Does the stack hold STACK_CAPACITY words already (R9)? Never, when it is unbounded. -/
def State.stackFull (s : State) : Bool :=
  match s.cfg.stackCapacity with
  | .unbounded => false
  | .words k => decide (s.stack.length = k)

/-! ### Stopping (R240 to R248) -/

/-- A fault as it is detected: its cause and the word it is about (R241). -/
structure FaultReport where
  cause : FaultCause
  info : Word
deriving DecidableEq, Repr

/-- TAKING A FAULT, the one operation for all of them (R245, R246): the four status registers record it, FAULT_PC being the
pc of the faulting instruction, and nothing else changes. There is no vector, no handler and no return from it (R247). -/
def State.raise (s : State) (f : FaultReport) : State :=
  { s with status := .faulted, faultCause := f.cause, faultPc := s.pc, faultInfo := f.info }

/-- A clean termination (R244): only STATUS changes. -/
def State.stop (s : State) (why : Status) : State :=
  { s with status := why }

/-- The run-state codes of R45. The only way back from a stop is the host's reset (R248): there is no return-from-fault
instruction (R247). -/
def Status.code : Status → BitVec 2
  | .running => 0
  | .halted => 1
  | .retHalted => 2
  | .faulted => 3

/-- The cause codes of R241. -/
def FaultCause.code : FaultCause → BitVec 4
  | .none => 0
  | .invalidOpcode => 1
  | .invalidOperand => 2
  | .invalidDestination => 3
  | .invalidRegisterValue => 4
  | .fetchOutOfBounds => 5
  | .dataOutOfBounds => 6
  | .stackUnderflow => 7
  | .divideByZero => 8
  | .inputEof => 9
  | .stackOverflow => 10

/-! ### The character ports (R230 to R233, R268) -/

/-- OutByte(b): the host records the byte (R50). -/
def State.outByte (s : State) (b : Byte) : State :=
  { s with hostOutput := s.hostOutput ++ [b] }

/-- Does the output port make OUT wait now (R232)? -/
def State.outputWaits (s : State) : Bool :=
  !s.hostOutputReady

/-- What the input port answers IN (R231, R232). -/
inductive InputAnswer where
  /-- A byte, and the state in which it has been consumed. -/
  | byte (b : Byte) (s : State)
  /-- End-of-input. -/
  | eof
  /-- Nothing yet: IN waits. -/
  | wait
deriving DecidableEq, Repr

/-- InByte(): the next byte, or end-of-input once the host has signalled it, or nothing yet (R232, R268). -/
def State.inByte (s : State) : InputAnswer :=
  match s.hostInput with
  | b :: rest => .byte b { s with hostInput := rest }
  | [] => if s.hostInputEnded then .eof else .wait

end Sys2Proof.Machine
end

