-- ==== Sys2Proof/Machine/Operands.lean ====
section
/-! DEFINITION. The operand decoder: fetching the operand words and resolving them to a value or a register index, one at a
time and left to right (R123, R125 to R129, R137). -/

namespace Sys2Proof.Machine

/-- What a phase of the step answers: a result, or the first fault it met. -/
abbrev Resolved (α : Type) := Except FaultReport α

/-- check(x): a register's content used as a value must be 32775 or below (R128). 32768..32775 is the number itself. -/
def checkContent (x : Word) : Resolved Word :=
  if x.toNat < Config.invalidBase then .ok x else .error ⟨.invalidRegisterValue, x⟩

/-- val(w): the value of a value operand, read from the register file as the step found it (R126, R133). -/
def State.val (s : State) : Operand → Resolved Word
  | .lit n => .ok (n.setWidth 16)
  | .reg i => checkContent (s.readReg i)
  | .invalid w => .error ⟨.invalidOperand, w⟩

/-- dst(w): the register a destination operand names; it is never read (R127). -/
def dst : Operand → Resolved RegIndex
  | .reg i => .ok i
  | .lit n => .error ⟨.invalidDestination, (Operand.lit n).word⟩
  | .invalid w => .error ⟨.invalidDestination, w⟩

/-- The fetch of operand word `k` at `pc + k` (R123): out of bounds at 32768 and above, with no wrap. -/
def State.fetchOperand (s : State) (k : Nat) : Resolved Unit :=
  if s.pc.toNat + k < Config.memWords then .ok () else .error ⟨.fetchOutOfBounds, BitVec.ofNat 16 (s.pc.toNat + k)⟩

/-- Fetch and resolve operand `k` as a value. -/
def State.fetchVal (s : State) (k : Nat) (o : Operand) : Resolved Word := do
  s.fetchOperand k
  s.val o

/-- Fetch and resolve operand `k` as a destination. -/
def State.fetchDst (s : State) (k : Nat) (o : Operand) : Resolved RegIndex := do
  s.fetchOperand k
  dst o

/-! The operands of each format, in the order of R125; every operand is resolved, used or not (R129). -/

/-- Format FV. -/
def State.resolveV (s : State) (a : Operand) : Resolved Word :=
  s.fetchVal 1 a

/-- Format FD. -/
def State.resolveD (s : State) (a : Operand) : Resolved RegIndex :=
  s.fetchDst 1 a

/-- Format FVV. -/
def State.resolveVV (s : State) (a b : Operand) : Resolved (Word × Word) := do
  let x ← s.fetchVal 1 a
  let y ← s.fetchVal 2 b
  return (x, y)

/-- Format FDV. -/
def State.resolveDV (s : State) (a b : Operand) : Resolved (RegIndex × Word) := do
  let d ← s.fetchDst 1 a
  let x ← s.fetchVal 2 b
  return (d, x)

/-- Format FDVV. -/
def State.resolveDVV (s : State) (a b c : Operand) : Resolved (RegIndex × Word × Word) := do
  let d ← s.fetchDst 1 a
  let x ← s.fetchVal 2 b
  let y ← s.fetchVal 3 c
  return (d, x, y)

/-- Go on to the execute phase with what was resolved, or take the fault (R130, R131, R246). -/
def State.proceed {α : Type} (s : State) (r : Resolved α) (execute : α → Outcome) : Outcome :=
  match r with
  | .ok x => execute x
  | .error f => .next (s.raise f)

/-- One operand slot of an instruction, by its kind: the fault it meets when it is operand `k`, if any. -/
def State.slotFault (s : State) (k : Nat) : SlotKind × Operand → Option FaultReport
  | (.value, o) => match s.fetchVal k o with | .ok _ => none | .error f => some f
  | (.destination, o) => match s.fetchDst k o with | .ok _ => none | .error f => some f

end Sys2Proof.Machine
end

