-- ==== Sys2Proof/Machine/Alu.lean ====
section
/-! DEFINITION. ADD, MULT, MOD, AND, OR and NOT (45_alu.md). Everything is unsigned; ADD and MULT are computed exactly and
then reduced modulo 32768; MOD, AND and OR are not masked; NOT alone is masked to 15 bits (R200). -/

namespace Sys2Proof.Machine

/-- ADD's result (R201): the exact sum modulo 32768. -/
def aluAdd (x y : Word) : Word :=
  BitVec.ofNat 16 ((x.toNat + y.toNat) % Config.modulus)

/-- MULT's result (R202): the exact product modulo 32768. -/
def aluMult (x y : Word) : Word :=
  BitVec.ofNat 16 (x.toNat * y.toNat % Config.modulus)

/-- MOD's result for a nonzero divisor (R203): the remainder, with no mask. -/
def aluMod (x y : Word) : Word :=
  BitVec.ofNat 16 (x.toNat % y.toNat)

/-- NOT's result (R206): the complement of bits 14..0; bit 15 is 0. -/
def aluNot (x : Word) : Word :=
  ~~~x &&& 0x7FFF

/-- ADD (R201). -/
def execAdd (a b c : Operand) (s : State) : Outcome :=
  s.proceed (s.resolveDVV a b c) fun (d, x, y) => .next ((s.writeReg d (aluAdd x y)).advance 4)

/-- MULT (R202). -/
def execMult (a b c : Operand) (s : State) : Outcome :=
  s.proceed (s.resolveDVV a b c) fun (d, x, y) => .next ((s.writeReg d (aluMult x y)).advance 4)

/-- MOD (R203): a zero divisor raises DIVIDE_BY_ZERO (D8). -/
def execMod (a b c : Operand) (s : State) : Outcome :=
  s.proceed (s.resolveDVV a b c) fun (d, x, y) =>
    if y = 0 then .next (s.raise ⟨.divideByZero, 0⟩)
    else .next ((s.writeReg d (aluMod x y)).advance 4)

/-- AND (R204): 16 bits, no mask. -/
def execAnd (a b c : Operand) (s : State) : Outcome :=
  s.proceed (s.resolveDVV a b c) fun (d, x, y) => .next ((s.writeReg d (x &&& y)).advance 4)

/-- OR (R205): 16 bits, no mask. -/
def execOr (a b c : Operand) (s : State) : Outcome :=
  s.proceed (s.resolveDVV a b c) fun (d, x, y) => .next ((s.writeReg d (x ||| y)).advance 4)

/-- NOT (R206). -/
def execNot (a b : Operand) (s : State) : Outcome :=
  s.proceed (s.resolveDV a b) fun (d, x) => .next ((s.writeReg d (aluNot x)).advance 3)

end Sys2Proof.Machine
end

