-- ==== Sys2Proof/Machine/CharIo.lean ====
section
/-! DEFINITION. OUT and IN (47_io.md). Both may wait on the host without limit (R232). A waiting instruction has written
nothing (R139), so the model's step of a waiting core answers the same state, and the step is tried again: DESIGN CHOICE
(safe, log 2). -/

namespace Sys2Proof.Machine

/-- OUT (R230): send the low 8 bits of val(a) when the port takes a byte; wait until then. -/
def execOut (a : Operand) (s : State) : Outcome :=
  s.proceed (s.resolveV a) fun x =>
    if s.outputWaits then .next s
    else .next ((s.outByte (x.setWidth 8)).advance 2)

/-- IN (R231): R[d] <- the next byte, zero-extended; wait until the port offers a byte or end-of-input, which raises
INPUT_EOF (R233). The destination is resolved before the wait, so a bad one consumes nothing. -/
def execIn (a : Operand) (s : State) : Outcome :=
  s.proceed (s.resolveD a) fun d =>
    match s.inByte with
    | .byte b s' => .next ((s'.writeReg d (b.setWidth 16)).advance 2)
    | .eof => .next (s.raise ⟨.inputEof, 0⟩)
    | .wait => .next s

end Sys2Proof.Machine
end

