-- ==== Sys2Proof/Machine/Flags.lean ====
section
/-! DEFINITION. The CORE has no status flags and no condition codes (R44). What stands in for them: EQ and GT write a truth
word to a register (R170, R171), and JT and JF test an operand value (R181, R182). -/

namespace Sys2Proof.Machine

/-- The word EQ and GT write: 1 for true, 0 for false (R44). -/
def truthWord (b : Bool) : Word :=
  if b then 1 else 0

/-- The condition of JT: any nonzero value is true (R181). JF's is its exact complement (R182). -/
def isNonzero (x : Word) : Bool :=
  x ≠ 0

end Sys2Proof.Machine
end

