-- ==== Sys2Proof/Machine/Compare.lean ====
section
/-! DEFINITION. EQ and GT (43_compare.md): unsigned, on the full resolved values. -/

namespace Sys2Proof.Machine

/-- EQ (R170). DESIGN CHOICE (unsafe, log 17): the third operand of R170's corner case `EQ r0 r1 32770` is the raw operand word
32770, which names r2 (R94, R126), so that instruction compares r1 with r2. -/
def execEq (a b c : Operand) (s : State) : Outcome :=
  s.proceed (s.resolveDVV a b c) fun (d, x, y) => .next ((s.writeReg d (truthWord (x == y))).advance 4)

/-- GT (R171). -/
def execGt (a b c : Operand) (s : State) : Outcome :=
  s.proceed (s.resolveDVV a b c) fun (d, x, y) =>
    .next ((s.writeReg d (truthWord (decide (y.toNat < x.toNat)))).advance 4)

end Sys2Proof.Machine
end

