-- ==== Sys2Proof/Machine/Control.lean ====
section
/-! DEFINITION. JMP, JT, JF, CALL and RET (44_control.md). Targets are absolute, need no alignment and may be any word: one
of 32768 or more faults at the next fetch, not at the jump (R186). No delay slot (R185). -/

namespace Sys2Proof.Machine

/-- JMP (R180). -/
def execJmp (a : Operand) (s : State) : Outcome :=
  s.proceed (s.resolveV a) fun t => .next (s.jump t)

/-- JT (R181): both operands are resolved, taken or not (R129). -/
def execJt (a b : Operand) (s : State) : Outcome :=
  s.proceed (s.resolveVV a b) fun (x, t) => if isNonzero x then .next (s.jump t) else .next (s.advance 3)

/-- JF (R182): JT's condition complemented. -/
def execJf (a b : Operand) (s : State) : Outcome :=
  s.proceed (s.resolveVV a b) fun (x, t) => if isNonzero x then .next (s.advance 3) else .next (s.jump t)

/-- CALL (R183): push pc + 2, then jump. STACK_OVERFLOW as in PUSH. -/
def execCall (a : Operand) (s : State) : Outcome :=
  s.proceed (s.resolveV a) fun t =>
    if s.stackFull then .next (s.raise ⟨.stackOverflow, 0⟩)
    else .next ((s.push (s.pc + 2)).jump t)

/-- RET (R184): pc <- Pop(), any word, with no check; on an empty stack a clean termination that leaves pc (R136). -/
def execRet (s : State) : Outcome :=
  match s.pop? with
  | none => .next (s.stop .retHalted)
  | some (v, s') => .next (s'.jump v)

end Sys2Proof.Machine
end

