-- ==== Sys2Proof/Machine/HaltNoop.lean ====
section
/-! DEFINITION. HALT and NOOP (41_halt_noop.md). -/

namespace Sys2Proof.Machine

/-- HALT (R150): STATUS <- HALTED; pc stays at the HALT (R136). -/
def execHalt (s : State) : Outcome :=
  .next (s.stop .halted)

/-- NOOP (R151): pc <- pc + 1. -/
def execNoop (s : State) : Outcome :=
  .next (s.advance 1)

end Sys2Proof.Machine
end

