-- ==== Sys2Proof/Machine/MemoryOps.lean ====
section
/-! DEFINITION. RMEM and WMEM (46_memory_ops.md), the only load and the only store (R61). One absolute address (R220). -/

namespace Sys2Proof.Machine

/-- RMEM (R221): R[d] <- mem[val(b)], the whole word with no check. -/
def execRmem (a b : Operand) (s : State) : Outcome :=
  s.proceed (s.resolveDV a b) fun (d, addr) =>
    match s.mem.read addr.toNat with
    | none => .next (s.raise ⟨.dataOutOfBounds, addr⟩)
    | some w => .next ((s.writeReg d w).advance 3)

/-- WMEM (R222): mem[val(a)] <- val(b). The instruction's own words were fetched before the write (R75). -/
def execWmem (a b : Operand) (s : State) : Outcome :=
  s.proceed (s.resolveVV a b) fun (addr, x) =>
    match s.mem.write addr.toNat x with
    | none => .next (s.raise ⟨.dataOutOfBounds, addr⟩)
    | some m => .next (State.advance { s with mem := m } 3)

end Sys2Proof.Machine
end

