-- ==== Sys2Proof/Machine/MoveStack.lean ====
section
/-! DEFINITION. SET, PUSH and POP (42_move_stack.md). -/

namespace Sys2Proof.Machine

/-- SET (R160): R[d] <- val(b). Three words long (C1). -/
def execSet (a b : Operand) (s : State) : Outcome :=
  s.proceed (s.resolveDV a b) fun (d, x) => .next ((s.writeReg d x).advance 3)

/-- PUSH (R161): push val(a) in full; STACK_OVERFLOW only when a finite capacity is reached (R9). -/
def execPush (a : Operand) (s : State) : Outcome :=
  s.proceed (s.resolveV a) fun x =>
    if s.stackFull then .next (s.raise ⟨.stackOverflow, 0⟩)
    else .next ((s.push x).advance 2)

/-- POP (R162): R[d] <- Pop(), the whole word with no check; STACK_UNDERFLOW after the destination is resolved. -/
def execPop (a : Operand) (s : State) : Outcome :=
  s.proceed (s.resolveD a) fun d =>
    match s.pop? with
    | none => .next (s.raise ⟨.stackUnderflow, 0⟩)
    | some (v, s') => .next ((s'.writeReg d v).advance 2)

end Sys2Proof.Machine
end

