-- ==== Sys2Proof/Machine/Fetch.lean ====
section
/-! DEFINITION. The instruction fetch unit: the opcode fetch and the opcode check (R121, R122), and the words handed to the
decoder. All of them come from the memory at the start of the step (R124). -/

namespace Sys2Proof.Machine

/-- The words at `pc` .. `pc + 3`, the longest instruction (R91). An address outside memory has no word: 0 stands there, and
exec takes FETCH_OUT_OF_BOUNDS for that operand before it looks at it (R123): DESIGN CHOICE (safe, log 7). -/
def State.fetchWindow (s : State) : List Word :=
  [0, 1, 2, 3].map fun k => (s.mem.read (s.pc.toNat + k)).getD 0

/-- The instruction at `pc`, or the fault of its opcode fetch or opcode check, in that order (R121, R122, R137). -/
def State.fetchInstr (s : State) : Resolved Instr :=
  match s.mem.read s.pc.toNat with
  | none => .error ⟨.fetchOutOfBounds, s.pc⟩
  | some op =>
    match decode s.fetchWindow with
    | .ok (i, _) => .ok i
    | .error _ => .error ⟨.invalidOpcode, op⟩

end Sys2Proof.Machine
end

