-- ==== Sys2Proof/Machine/Step.lean ====
section
/-! DEFINITION. One step of the machine (R120) and the placing of an instruction where the next step fetches it. -/

namespace Sys2Proof.Machine

/-- One step (R120): a RUNNING core fetches, decodes and executes the instruction at `pc`, or takes the fault of its fetch;
a core that is not RUNNING changes nothing (R248). -/
def step (s : State) : Host.Outcome State Fault Refusal :=
  match s.status with
  | .running => s.proceed s.fetchInstr fun i => exec i s
  | .halted | .retHalted | .faulted => .next s

/-- `s` with the instruction whose bits are `w` (Decode.lean's `tableWords`) stored at `pc`, and RUNNING, so that the next
step fetches and runs it (log 9). Nothing else changes. -/
def State.withFetchWord (s : State) (nbits w : Nat) : State :=
  { s with mem := s.mem.pokeAll s.pc.toNat (tableWords nbits w), status := .running }

end Sys2Proof.Machine
end

