-- ==== Sys2Proof/Asm.lean ====
section
/-! DEFINITION. The assembler syntax of R102 (decision D19): how an instruction and the `.word` directive are written, and
the words they stand for. It has no effect on the machine. There are no pseudo-instructions (R103). -/

namespace Sys2Proof

/-- The mnemonics of R96. -/
def Opcode.mnemonic : Opcode → String
  | .halt => "HALT"
  | .set => "SET"
  | .push => "PUSH"
  | .pop => "POP"
  | .eq => "EQ"
  | .gt => "GT"
  | .jmp => "JMP"
  | .jt => "JT"
  | .jf => "JF"
  | .add => "ADD"
  | .mult => "MULT"
  | .mod => "MOD"
  | .and => "AND"
  | .or => "OR"
  | .not => "NOT"
  | .rmem => "RMEM"
  | .wmem => "WMEM"
  | .call => "CALL"
  | .ret => "RET"
  | .out => "OUT"
  | .inp => "IN"
  | .noop => "NOOP"

/-- `rN` stands for the word `32768 + N`, a decimal number for the literal of the same value (R102). An invalid word has no
operand spelling: it is written with `.word`. -/
def Operand.text : Operand → Option String
  | .lit n => some (toString n.toNat)
  | .reg i => some ("r" ++ toString i.val)
  | .invalid _ => none

/-- One line of assembler text: an instruction, or the directive `.word n` (R102). -/
inductive AsmLine where
  | instr (i : Instr)
  | word (w : Word)
deriving DecidableEq, Repr

/-- The words a line stands for (R102). -/
def AsmLine.words : AsmLine → List Word
  | .instr i => encode i
  | .word w => [w]

/-- The text of a line: a mnemonic in capitals, then the operands in the order a, b, c, separated by spaces (R102); none
for an instruction with an invalid operand word, which only `.word` lines can write. -/
def AsmLine.text : AsmLine → Option String
  | .word w => some (".word " ++ toString w.toNat)
  | .instr i => (i.operands.mapM Operand.text).map fun os => " ".intercalate (i.opcode.mnemonic :: os)

/-- The words of a program text, line after line. -/
def assemble (ls : List AsmLine) : List Word :=
  ls.flatMap AsmLine.words

/-! ### Reading a program text. Empty statements are skipped: DESIGN CHOICE (safe, log 16). -/

/-- Cut a text at every separator. -/
def cutText (sep : Char → Bool) : List Char → List (List Char)
  | [] => [[]]
  | c :: cs =>
    if sep c then [] :: cutText sep cs
    else
      match cutText sep cs with
      | [] => [[c]]
      | w :: ws => (c :: w) :: ws

/-- The parts of a text between separators that are not empty. -/
def textParts (sep : Char → Bool) (cs : List Char) : List (List Char) :=
  (cutText sep cs).filter fun part => !part.isEmpty

/-- The decimal digits of a number, after what `acc` stands for. -/
def readDigits : Nat → List Char → Option Nat
  | acc, [] => some acc
  | acc, c :: cs => if 48 ≤ c.toNat ∧ c.toNat ≤ 57 then readDigits (10 * acc + (c.toNat - 48)) cs else none

/-- A decimal number below `bound`. -/
def readNumber (bound : Nat) (cs : List Char) : Option Nat :=
  if cs.isEmpty then none else (readDigits 0 cs).filter fun n => decide (n < bound)

/-- `r0` to `r7`, or a decimal number 0..32767 (R102). -/
def Operand.read : List Char → Option Operand
  | ['r', c] => if 48 ≤ c.toNat ∧ c.toNat ≤ 55 then some (.reg (Fin.ofNat 8 (c.toNat - 48))) else none
  | cs => (readNumber Config.regBase cs).map fun n => .lit (BitVec.ofNat 15 n)

/-- The opcode a mnemonic in capitals names (R96, R102). -/
def Opcode.read (cs : List Char) : Option Opcode :=
  [Opcode.halt, .set, .push, .pop, .eq, .gt, .jmp, .jt, .jf, .add, .mult, .mod, .and, .or, .not, .rmem, .wmem, .call, .ret,
    .out, .inp, .noop].find? fun o => o.mnemonic.toList == cs

/-- One statement, given as its parts: `.word n` with `n` in 0..65535, or a mnemonic with as many operands as its format has
(R102). -/
def AsmLine.read : List (List Char) → Option AsmLine
  | [] => none
  | head :: rest =>
    if head = ['.', 'w', 'o', 'r', 'd'] then
      match rest with
      | [n] => (readNumber 65536 n).map fun n => .word (BitVec.ofNat 16 n)
      | _ => none
    else do
      let o ← Opcode.read head
      let os ← rest.mapM Operand.read
      let operand k := os.getD k (.lit 0)
      if os.length = o.format.kinds.length then some (.instr (o.instr (operand 0) (operand 1) (operand 2))) else none

/-- The words of a program text; its statements are separated by `;` or by line ends, their parts by spaces (R102). -/
def assembleText (text : String) : Option (List Word) :=
  ((textParts (fun c => c == ';' || c == '\n') text.toList).map (textParts (· == ' '))).filter (fun parts => !parts.isEmpty)
    |>.mapM AsmLine.read |>.map assemble

end Sys2Proof
end

