-- ==== Sys2Proof/Machine/HostPort.lean ====
section
/-! DEFINITION. The host's requests on the control port and on the character ports, each taken between steps (R262 to R268),
and what the core answers. -/

namespace Sys2Proof.Machine

/-! ### Step and run (R138, R265, R266) -/

/-- Which clean termination stopped the core (R138, R244). -/
inductive HaltReason where
  | halted
  | retHalted
deriving DecidableEq, Repr

/-- What a step request reports (R138), and `waiting` while its instruction waits on the host (R139, R232). -/
inductive StepReport where
  | continues
  | halt (why : HaltReason)
  | fault (cause : FaultCause)
  | waiting
deriving DecidableEq, Repr

/-- The outcome STATUS stands for (R138). -/
def State.report (s : State) : StepReport :=
  match s.status with
  | .running => .continues
  | .halted => .halt .halted
  | .retHalted => .halt .retHalted
  | .faulted => .fault s.faultCause

/-- Does this instruction wait on the host in this state (R232)? Its operand is resolved first (R231). -/
def State.waitsOn (s : State) : Instr → Bool
  | .out a =>
    match s.resolveV a with
    | .ok _ => s.outputWaits
    | .error _ => false
  | .inp a =>
    match s.resolveD a with
    | .ok _ => s.inByte == .wait
    | .error _ => false
  | .halt | .set _ _ | .push _ | .pop _ | .eq _ _ _ | .gt _ _ _ | .jmp _ | .jt _ _ | .jf _ _ | .add _ _ _ | .mult _ _ _
  | .mod _ _ _ | .and _ _ _ | .or _ _ _ | .not _ _ | .rmem _ _ | .wmem _ _ | .call _ | .ret | .noop => false

/-- Does the next step wait on the host? -/
def State.waiting (s : State) : Bool :=
  match s.status, s.fetchInstr with
  | .running, .ok i => s.waitsOn i
  | _, _ => false

/-- The state after a step. The other two outcomes do not occur: `Obligations.StepAnswersNextState`. -/
def State.afterStep (s : State) : State :=
  match step s with
  | .next t => t
  | .fault _ | .refused _ => s

/-- Is a step in progress: a RUNNING core whose step request has not returned, because its OUT or IN waits (R139, R232)? -/
def State.midStep (s : State) : Bool :=
  decide (s.status = .running) && s.stepPending

/-- The step request (R265): the state after it and its report. While its instruction waits it has not returned and is
pending, and the next step request goes on with it (logs 2 and 18). -/
def State.hostStep (s : State) : State × StepReport :=
  match s.status with
  | .running => ({ s.afterStep with stepPending := s.waiting }, if s.waiting then .waiting else s.afterStep.report)
  | .halted | .retHalted | .faulted => (s, s.report)

/-- The run request (R266): steps until the report is neither CONTINUE nor a wait. `none` says that it has not returned
within `fuel` steps; a run that never returns is `none` for every fuel (log 12). DESIGN CHOICE (unsafe, log 18): a run asked for
while a step is in progress goes on with that step and then runs; R262 says only that it is not taken then. -/
def State.run : Nat → State → Option (State × StepReport)
  | 0, _ => none
  | fuel + 1, s =>
    match s.hostStep with
    | (t, .continues) | (t, .waiting) => State.run fuel t
    | (t, .halt why) => some (t, .halt why)
    | (t, .fault cause) => some (t, .fault cause)

/-! ### Reset, load and the status read (R263, R264, R267): what each does when it is taken, which is only between steps (R67,
R262): `serve` below holds them back while a step is in progress. -/

/-- The reset request (R263, R280): every piece of the core's state and the host's output record go to their reset values;
the input record is the host's own and the parameter is fixed, so both stay (R51; log 11). -/
def State.hostReset (s : State) : State :=
  { State.reset with
    hostInput := s.hostInput, hostInputEnded := s.hostInputEnded, hostOutputReady := s.hostOutputReady, cfg := s.cfg }

/-- What load returns (R264). -/
inductive LoadResult where
  | ok
  | loadError
deriving DecidableEq, Repr

/-- The load request (R285 to R289): the image's words go to addresses 0 .. k-1 and nothing else changes; more words than
memory holds are rejected whole. STATUS is not reset (R289). -/
def State.load (s : State) (bytes : List Byte) : State × LoadResult :=
  if (wordsOfBytes bytes).length ≤ Config.memWords then ({ s with mem := s.mem.pokeAll 0 (wordsOfBytes bytes) }, .ok)
  else (s, .loadError)

/-- What the status read returns (R267): the four registers as the host sees them. -/
structure StatusRead where
  status : BitVec 2
  faultCause : BitVec 4
  faultPc : Word
  faultInfo : Word
deriving DecidableEq, Repr

/-- The status read (R267), with no side effect. -/
def State.statusRead (s : State) : StatusRead :=
  ⟨s.status.code, s.faultCause.code, s.faultPc, s.faultInfo⟩

/-! ### The host's side of the character ports (R268) -/

/-- The host offers more input. Once it has signalled end-of-input it signals that to every later request (R268), so bytes
offered after it are not taken: log 13. -/
def State.supplyInput (s : State) (bytes : List Byte) : State :=
  if s.hostInputEnded then s else { s with hostInput := s.hostInput ++ bytes }

/-- The host signals end-of-input after the bytes it has offered (R268). -/
def State.endInput (s : State) : State :=
  { s with hostInputEnded := true }

/-- The host lets the output port take bytes, or holds it (R232, R268): log 3. -/
def State.setOutputReady (s : State) (ready : Bool) : State :=
  { s with hostOutputReady := ready }

/-! ### All requests -/

/-- What the host does (R262, R268). `run` is `step` repeated (R266). -/
inductive HostRequest where
  | reset
  | load (bytes : List Byte)
  | step
  | readStatus
  | supplyInput (bytes : List Byte)
  | endInput
  | setOutputReady (ready : Bool)
deriving DecidableEq, Repr

/-- What it gets back (R268). `notTaken` is the model's reply to a request made while a step is in progress: log 18. -/
inductive HostReply where
  | nothing
  | notTaken
  | loaded (r : LoadResult)
  | stepped (r : StepReport)
  | status (r : StatusRead)
deriving DecidableEq, Repr

/-- A request of the control port that is taken only between steps (R67, R262). While a step is in progress it is not taken
and nothing changes: log 18. -/
def State.betweenSteps (s : State) (served : State × HostReply) : State × HostReply :=
  if s.midStep then (s, .notTaken) else served

/-- The state after a request, and the reply. A reset, a load and a status read wait for the end of a step in progress (R67,
R262); a step request then goes on with that step; the character ports answer it (R232, R268). -/
def State.serve (s : State) : HostRequest → State × HostReply
  | .reset => s.betweenSteps (s.hostReset, .nothing)
  | .load bytes => s.betweenSteps ((s.load bytes).1, .loaded (s.load bytes).2)
  | .step => (s.hostStep.1, .stepped s.hostStep.2)
  | .readStatus => s.betweenSteps (s, .status s.statusRead)
  | .supplyInput bytes => (s.supplyInput bytes, .nothing)
  | .endInput => (s.endInput, .nothing)
  | .setOutputReady ready => (s.setOutputReady ready, .nothing)

end Sys2Proof.Machine
end

