-- ==== Sys2Proof/Machine/Arbiter.lean ====
section
/-! DEFINITION. The memory read/write arbiter: the accesses one step makes on the memory port, in their order (R66). It adds
nothing a program can see (R68); it says what the port carries. -/

namespace Sys2Proof.Machine

/-- One transaction of the memory port (R7): a read with the word it returns, or a write. -/
inductive MemAccess where
  | read (addr : Nat) (w : Word)
  | write (addr : Nat) (w : Word)
deriving DecidableEq, Repr

/-- The memory after a transaction. -/
def MemAccess.apply (m : Memory) : MemAccess → Memory
  | .read _ _ => m
  | .write a w => m.poke a w

/-- The operand fetches from operand `k` on: as many as are reached before a fault (R123, R125). -/
def State.operandAccesses (s : State) : Nat → List (SlotKind × Operand) → List MemAccess
  | _, [] => []
  | k, slot :: rest =>
    match s.mem.read (s.pc.toNat + k) with
    | none => []
    | some w =>
      .read (s.pc.toNat + k) w ::
        match s.slotFault k slot with
        | none => s.operandAccesses (k + 1) rest
        | some _ => []

/-- The data access: the read of RMEM or the write of WMEM, at most one, and none when the instruction faults (R66). -/
def State.dataAccess (s : State) : Instr → List MemAccess
  | .rmem a b =>
    match s.resolveDV a b with
    | .error _ => []
    | .ok (_, addr) => ((s.mem.read addr.toNat).map fun w => MemAccess.read addr.toNat w).toList
  | .wmem a b =>
    match s.resolveVV a b with
    | .error _ => []
    | .ok (addr, x) => ((s.mem.write addr.toNat x).map fun _ => MemAccess.write addr.toNat x).toList
  | .halt | .set _ _ | .push _ | .pop _ | .eq _ _ _ | .gt _ _ _ | .jmp _ | .jt _ _ | .jf _ _ | .add _ _ _ | .mult _ _ _
  | .mod _ _ _ | .and _ _ _ | .or _ _ _ | .not _ _ | .call _ | .ret | .out _ | .inp _ | .noop => []

/-- The fetches of a step, in order: the opcode fetch, then the operand fetches (R66). -/
def State.fetchAccesses (s : State) : List MemAccess :=
  match s.mem.read s.pc.toNat with
  | none => []
  | some op =>
    .read s.pc.toNat op ::
      match s.fetchInstr with
      | .error _ => []
      | .ok i => s.operandAccesses 1 i.slots

/-- The access of a step's execute phase (R66). -/
def State.executeAccesses (s : State) : List MemAccess :=
  match s.fetchInstr with
  | .error _ => []
  | .ok i => s.dataAccess i

/-- The accesses that the memory port carries when `s` makes a step, in order: the fetches, then the data access (R66). A
step in progress has made its fetches already, once, when it began; while its OUT or IN waits the core does nothing else
(R232), so going on with it fetches nothing again. -/
def State.stepAccesses (s : State) : List MemAccess :=
  match s.status with
  | .halted | .retHalted | .faulted => []
  | .running => (if s.midStep then [] else s.fetchAccesses) ++ s.executeAccesses

end Sys2Proof.Machine
end

