-- ==== Sys2Proof/Safety.lean ====
section
/-! DEFINITION. The terms the statements use: what an operand denotes and which operand faults first, said from R126 to R128
and R137 and not from the operand decoder's own functions; and the invariant of the machine. -/

namespace Sys2Proof.Machine

/-! ### Operands, as the rules say them -/

/-- The value operand `o` has the value `x` in `s` (R126, R128): a literal denotes itself; a register reference denotes the
register's content, which must be 32775 or below. -/
@[reducible] def ValueOf (s : State) (o : Operand) (x : Word) : Prop :=
  match o with
  | .lit n => x.toNat = n.toNat
  | .reg i => x = s.regs[i] ∧ x.toNat ≤ 32775
  | .invalid _ => False

/-- The destination operand `o` names register `d` (R127). -/
@[reducible] def DestOf (o : Operand) (d : RegIndex) : Prop :=
  o = .reg d

/-- The words of an instruction of `n` words at `pc` all lie in memory (R121, R123). -/
@[reducible] def WordsInMemory (s : State) (n : Nat) : Prop :=
  s.pc.toNat + n ≤ 32768

/-- The operand in this slot resolves. -/
def SlotResolves (s : State) : SlotKind × Operand → Prop
  | (.value, o) => ∃ x, ValueOf s o x
  | (.destination, o) => ∃ d, DestOf o d

/-- The first fault that the operand slots meet, from operand `k` on, in the order of R137: for each operand its fetch, then
its class, then its register's content; a later operand only when the earlier ones resolve. -/
inductive FirstOperandFault (s : State) : Nat → List (SlotKind × Operand) → FaultReport → Prop where
  | fetch (k : Nat) (slot : SlotKind × Operand) (rest : List (SlotKind × Operand)) (h : 32768 ≤ s.pc.toNat + k) :
    FirstOperandFault s k (slot :: rest) ⟨.fetchOutOfBounds, BitVec.ofNat 16 (s.pc.toNat + k)⟩
  | destination (k : Nat) (o : Operand) (rest : List (SlotKind × Operand)) (h : s.pc.toNat + k < 32768)
    (ho : ∀ d, ¬ DestOf o d) :
    FirstOperandFault s k ((.destination, o) :: rest) ⟨.invalidDestination, o.word⟩
  | operand (k : Nat) (w : Word) (rest : List (SlotKind × Operand)) (h : s.pc.toNat + k < 32768) :
    FirstOperandFault s k ((.value, .invalid w) :: rest) ⟨.invalidOperand, w⟩
  | content (k : Nat) (i : RegIndex) (rest : List (SlotKind × Operand)) (h : s.pc.toNat + k < 32768)
    (hc : 32776 ≤ s.regs[i].toNat) :
    FirstOperandFault s k ((.value, .reg i) :: rest) ⟨.invalidRegisterValue, s.regs[i]⟩
  | later (k : Nat) (slot : SlotKind × Operand) (rest : List (SlotKind × Operand)) (f : FaultReport)
    (h : s.pc.toNat + k < 32768) (hr : SlotResolves s slot) (hf : FirstOperandFault s (k + 1) rest f) :
    FirstOperandFault s k (slot :: rest) f

/-- The resolution faults of an instruction: the first operand fault its slots meet is the one its execution takes (the
"resolution faults" of each instruction's rule, in the order of R137). -/
def TakesResolutionFaults (i : Instr) (s : State) : Prop :=
  ∀ f, FirstOperandFault s 1 i.slots f → exec i s = .next (s.raise f)

/-! ### Fetches, as the rules say them -/

/-- The fetches of the opcode word and of `n` operand words: reads at pc, pc+1, .. pc+n in that order (R66, R121, R123). -/
def State.fetchReads (s : State) (n : Nat) : List MemAccess :=
  (List.range (n + 1)).map fun k => .read (s.pc.toNat + k) ((s.mem.read (s.pc.toNat + k)).getD 0)

/-! ### Instructions, as the rules say them -/

/-- The register an instruction writes when it completes: the one its destination slot names (R33, R93). The instructions
with a destination slot are SET, POP, EQ, GT, ADD, MULT, MOD, AND, OR, NOT, RMEM and IN. -/
def destinationOf : Instr → Option RegIndex
  | .set (.reg d) _ | .pop (.reg d) | .eq (.reg d) _ _ | .gt (.reg d) _ _ | .add (.reg d) _ _ | .mult (.reg d) _ _
  | .mod (.reg d) _ _ | .and (.reg d) _ _ | .or (.reg d) _ _ | .not (.reg d) _ | .rmem (.reg d) _ | .inp (.reg d) => some d
  | _ => none

/-- The faults each instruction can raise after its opcode check (R242). -/
def possibleFaults : Instr → List FaultCause
  | .halt | .noop | .ret => []
  | .set _ _ | .not _ _ | .eq _ _ _ | .gt _ _ _ | .add _ _ _ | .mult _ _ _ | .and _ _ _ | .or _ _ _ =>
    [.fetchOutOfBounds, .invalidDestination, .invalidOperand, .invalidRegisterValue]
  | .push _ | .call _ => [.fetchOutOfBounds, .invalidOperand, .invalidRegisterValue, .stackOverflow]
  | .pop _ => [.fetchOutOfBounds, .invalidDestination, .stackUnderflow]
  | .mod _ _ _ => [.fetchOutOfBounds, .invalidDestination, .invalidOperand, .invalidRegisterValue, .divideByZero]
  | .jmp _ | .jt _ _ | .jf _ _ | .out _ => [.fetchOutOfBounds, .invalidOperand, .invalidRegisterValue]
  | .rmem _ _ => [.fetchOutOfBounds, .invalidDestination, .invalidOperand, .invalidRegisterValue, .dataOutOfBounds]
  | .wmem _ _ => [.fetchOutOfBounds, .invalidOperand, .invalidRegisterValue, .dataOutOfBounds]
  | .inp _ => [.fetchOutOfBounds, .invalidDestination, .inputEof]

/-! ### The invariant -/

/-- The word FAULT_INFO holds for a cause, by the conditions of R241. -/
@[reducible] def InfoFits : FaultCause → Word → Prop
  | .none, _ => False
  | .invalidOpcode, w => 22 ≤ w.toNat
  | .invalidOperand, w => 32776 ≤ w.toNat
  | .invalidDestination, w => w.toNat < 32768 ∨ 32776 ≤ w.toNat
  | .invalidRegisterValue, w => 32776 ≤ w.toNat
  | .fetchOutOfBounds, w => 32768 ≤ w.toNat
  | .dataOutOfBounds, w => 32768 ≤ w.toNat
  | .stackUnderflow, w => w = 0
  | .divideByZero, w => w = 0
  | .inputEof, w => w = 0
  | .stackOverflow, w => w = 0

/-- The status registers agree: a FAULTED core holds the record of a fault at its pc with a fitting cause and info word
(R136, R241, R246), and any other core holds the reset values there (R244, R46 to R48). -/
@[reducible] def RecordAgrees (s : State) : Prop :=
  match s.status with
  | .faulted => s.faultPc = s.pc ∧ InfoFits s.faultCause s.faultInfo
  | _ => s.faultCause = .none ∧ s.faultPc = 0 ∧ s.faultInfo = 0

/-- The stack holds at most STACK_CAPACITY words (R9). -/
@[reducible] def StackFits (s : State) : Prop :=
  match s.cfg.stackCapacity with
  | .unbounded => True
  | .words k => s.stack.length ≤ k

/-- The invariant of the machine: memory is in canonical form, every stack entry is at most 32775 (R42), the stack fits its
capacity, the capacity is legal (R9), and the status registers agree. -/
structure Inv (s : State) : Prop where
  memory : s.mem.wf = true
  stackWords : ∀ w ∈ s.stack, w.toNat ≤ 32775
  stackFits : StackFits s
  config : s.cfg.Legal
  record : RecordAgrees s

/-- A step in progress is an OUT or IN at pc whose operand has resolved (R139, R231, R232). -/
@[reducible] def StepInProgressFits (s : State) : Prop :=
  s.midStep = true → WordsInMemory s 2 ∧
    ((∃ a rest x, decode s.fetchWindow = .ok (.out a, rest) ∧ ValueOf s a x) ∨
      ∃ a rest d, decode s.fetchWindow = .ok (.inp a, rest) ∧ DestOf a d)

/-- Two states that differ at most in the four status registers. -/
@[reducible] def SameButStatus (s t : State) : Prop :=
  t = { s with status := t.status, faultCause := t.faultCause, faultPc := t.faultPc, faultInfo := t.faultInfo }

end Sys2Proof.Machine
end

