-- ==== Sys2Proof/Certificates/Slice0/Obligations.lean ====
section
/-! DEFINITION. The statements for the provers. Each docstring names the rule it formalises. Where a rule of spec/ carries
"[decision: …]" or "[derived: …]", the spec marks it as its own choice or inference, and the statement's basis is
'derived'. -/

open Sys2Proof Sys2Proof.Machine

/-! ### Encoding (30_encoding.md) -/

/-- Decoding the words of a well-formed instruction, whatever follows them, gives that instruction and leaves what follows:
no bit of any operand is dropped. -/
def Obligations.DecodeOfEncodedInstruction : Prop :=
  ∀ (i : Instr) (rest : List Word), i.WellFormed → decode (encode i ++ rest) = .ok (i, rest)

/-- The other direction: words that decode are exactly the encoding of the instruction they decode to, and that instruction
is well-formed. So no two encodings mean one instruction. -/
def Obligations.EncodeOfDecodedWords : Prop :=
  ∀ (ws rest : List Word) (i : Instr), decode ws = .ok (i, rest) → i.WellFormed ∧ encode i ++ rest = ws

/-- R94: the three classes of an operand word, by its bits and by its value, and what each class denotes; an invalid one has
no meaning and raises a fault in either kind of slot. Which fault, by kind of slot, is R99's and the spec's decision D6. -/
def Obligations.OperandWordClasses : Prop :=
  ∀ w : Word,
    (w.getLsbD 15 = false ↔ w.toNat ≤ 32767) ∧
    (w.toNat ≤ 32767 → ∃ n, Operand.ofWord w = .lit n ∧ n.toNat = w.toNat) ∧
    (w.extractLsb 15 3 = 0b1000000000000#13 ↔ 32768 ≤ w.toNat ∧ w.toNat ≤ 32775) ∧
    (32768 ≤ w.toNat → w.toNat ≤ 32775 →
      ∃ r, Operand.ofWord w = .reg r ∧ r.val = (w.extractLsb 2 0).toNat ∧ r.val = w.toNat - 32768) ∧
    ((w.getLsbD 15 = true ∧ w.extractLsb 14 3 ≠ 0#12) ↔ 32776 ≤ w.toNat) ∧
    (32776 ≤ w.toNat → Operand.ofWord w = .invalid w ∧ (∀ s x, ¬ ValueOf s (Operand.ofWord w) x) ∧
      (∀ s : State, s.val (Operand.ofWord w) = .error ⟨.invalidOperand, w⟩) ∧
      dst (Operand.ofWord w) = .error ⟨.invalidDestination, w⟩)

/-- R96: the opcode map, row by row: number, mnemonic, format, operand kinds and length; and that there is no other opcode. -/
def Obligations.OpcodeMapRows : Prop :=
  (∀ row ∈ [(0, "HALT", Format.f0, [], 1), (1, "SET", .fdv, [SlotKind.destination, .value], 3), (2, "PUSH", .fv, [.value], 2),
      (3, "POP", .fd, [.destination], 2), (4, "EQ", .fdvv, [.destination, .value, .value], 4),
      (5, "GT", .fdvv, [.destination, .value, .value], 4), (6, "JMP", .fv, [.value], 2), (7, "JT", .fvv, [.value, .value], 3),
      (8, "JF", .fvv, [.value, .value], 3), (9, "ADD", .fdvv, [.destination, .value, .value], 4),
      (10, "MULT", .fdvv, [.destination, .value, .value], 4), (11, "MOD", .fdvv, [.destination, .value, .value], 4)],
    ∃ o, Opcode.ofWord (BitVec.ofNat 16 row.1) = some o ∧ o.mnemonic = row.2.1 ∧ o.format = row.2.2.1 ∧
      o.format.kinds = row.2.2.2.1 ∧ 1 + o.format.kinds.length = row.2.2.2.2) ∧
  (∀ row ∈ [(12, "AND", Format.fdvv, [SlotKind.destination, .value, .value], 4),
      (13, "OR", .fdvv, [.destination, .value, .value], 4), (14, "NOT", .fdv, [.destination, .value], 3),
      (15, "RMEM", .fdv, [.destination, .value], 3), (16, "WMEM", .fvv, [.value, .value], 3), (17, "CALL", .fv, [.value], 2),
      (18, "RET", .f0, [], 1), (19, "OUT", .fv, [.value], 2), (20, "IN", .fd, [.destination], 2), (21, "NOOP", .f0, [], 1)],
    ∃ o, Opcode.ofWord (BitVec.ofNat 16 row.1) = some o ∧ o.mnemonic = row.2.1 ∧ o.format = row.2.2.1 ∧
      o.format.kinds = row.2.2.2.1 ∧ 1 + o.format.kinds.length = row.2.2.2.2) ∧
  ∀ w : Word, 22 ≤ w.toNat → Opcode.ofWord w = none

/-- R91: an instruction's length is 1 + its operand count, as the rule's table lists it by opcode. -/
def Obligations.InstructionLengths : Prop :=
  ∀ i : Instr,
    (encode i).length = 1 + i.operands.length ∧
    (encode i).length =
      match i with
      | .halt | .ret | .noop => 1
      | .push _ | .pop _ | .jmp _ | .call _ | .out _ | .inp _ => 2
      | .set _ _ | .jt _ _ | .jf _ _ | .not _ _ | .rmem _ _ | .wmem _ _ => 3
      | .eq _ _ _ | .gt _ _ _ | .add _ _ _ | .mult _ _ _ | .mod _ _ _ | .and _ _ _ | .or _ _ _ => 4

/-- Words written out in 95_test_vectors.md decode to the instructions they stand for, one of each family. -/
def Obligations.SpecWordsDecode : Prop :=
  decode [0] = .ok (.halt, []) ∧
  decode [1, 32768, 4] = .ok (.set (.reg 0) (.lit 4), []) ∧
  decode [3, 32769] = .ok (.pop (.reg 1), []) ∧
  decode [4, 32770, 32768, 32769] = .ok (.eq (.reg 2) (.reg 0) (.reg 1), []) ∧
  decode [7, 32768, 3] = .ok (.jt (.reg 0) (.lit 3), []) ∧
  decode [9, 32768, 32768, 32767] = .ok (.add (.reg 0) (.reg 0) (.lit 32767), []) ∧
  decode [16, 100, 32768] = .ok (.wmem (.lit 100) (.reg 0), []) ∧
  decode [19, 65, 0] = .ok (.out (.lit 65), [0]) ∧
  decode [20, 32771] = .ok (.inp (.reg 3), [])

/-! ### The step (40_cycle.md) -/

/-- When the words at pc decode to `i`, a step of a RUNNING core is exec of `i` at that state: nothing is done around it. -/
def Obligations.StepRunsDecodedInstruction : Prop :=
  ∀ (s : State) (i : Instr) (rest : List Word), s.status = .running → s.pc.toNat < 32768 →
    decode s.fetchWindow = .ok (i, rest) → step s = exec i s

/-- When the encoding of a well-formed instruction stands in memory at pc, a step of a RUNNING core is exec of it. -/
def Obligations.StepRunsEncodedInstruction : Prop :=
  ∀ (s : State) (i : Instr), s.status = .running → i.WellFormed → WordsInMemory s i.length →
    (∀ k w, (encode i)[k]? = some w → s.mem.read (s.pc.toNat + k) = some w) → step s = exec i s

/-- The faults of the opcode fetch and of the opcode check (R121 by D4, R122 by D7): they come before any operand is looked
at. -/
def Obligations.FetchAndOpcodeFaults : Prop :=
  ∀ s : State, s.status = .running →
    (32768 ≤ s.pc.toNat → step s = .next (s.raise ⟨.fetchOutOfBounds, s.pc⟩)) ∧
    ∀ op, s.mem.read s.pc.toNat = some op → 22 ≤ op.toNat → step s = .next (s.raise ⟨.invalidOpcode, op⟩)

/-- For every instruction, the first operand fault in the order of R137 (by D12) is the one that is taken. -/
def Obligations.FirstOperandFaultIsTaken : Prop :=
  ∀ (i : Instr) (s : State) (f : FaultReport), FirstOperandFault s 1 i.slots f → exec i s = .next (s.raise f)

/-- The same of a step, also of an instruction whose last words would lie past the end of memory: only the words inside
memory must be the instruction's (R123, R137, by D12). -/
def Obligations.FirstOperandFaultStopsStep : Prop :=
  ∀ (s : State) (i : Instr) (f : FaultReport), s.status = .running → s.pc.toNat < 32768 → i.WellFormed →
    (∀ k w, (encode i)[k]? = some w → s.pc.toNat + k < 32768 → s.mem.read (s.pc.toNat + k) = some w) →
    FirstOperandFault s 1 i.slots f → step s = .next (s.raise f)

/-- Operand slots either all lie in memory and resolve, or meet a first fault, never both, and the first fault is one
(R125 and R137 by D12, R250). -/
def Obligations.OperandsResolveOrFaultOnce : Prop :=
  ∀ (s : State) (slots : List (SlotKind × Operand)) (k : Nat),
    ((∃ f, FirstOperandFault s k slots f) ↔
      ¬ ((slots ≠ [] → s.pc.toNat + k + slots.length ≤ 32768) ∧ ∀ slot ∈ slots, SlotResolves s slot)) ∧
    ∀ f g, FirstOperandFault s k slots f → FirstOperandFault s k slots g → f = g

/-- What taking a fault writes (R246 by D10), and the codes STATUS and FAULT_CAUSE are read as (R45, R241 by D10). -/
def Obligations.FaultRecordAndCodes : Prop :=
  (∀ (s : State) (f : FaultReport), s.raise f =
    { s with status := .faulted, faultCause := f.cause, faultPc := s.pc, faultInfo := f.info }) ∧
  [Status.running, .halted, .retHalted, .faulted].map Status.code = [0, 1, 2, 3] ∧
  [FaultCause.none, .invalidOpcode, .invalidOperand, .invalidDestination, .invalidRegisterValue, .fetchOutOfBounds,
    .dataOutOfBounds, .stackUnderflow, .divideByZero, .inputEof, .stackOverflow].map FaultCause.code =
    [0, 1, 2, 3, 4, 5, 6, 7, 8, 9, 10] ∧
  ∀ s : State, s.statusRead = ⟨s.status.code, s.faultCause.code, s.faultPc, s.faultInfo⟩

/-- A stopped core: a step changes nothing and reports the same outcome again, and run returns at once (R120, R248 by D14).
And what a step request reports of any core (R138, R265, by D10): it waits exactly in an OUT or IN whose operand resolves and
that the host does not answer, and then reports the wait and is pending; otherwise CONTINUE, HALT or FAULT by the STATUS after
the step. The report of a wait, the port's ready signal, the bound on the steps of run and the pending mark are the model's
choices: logs 2, 3, 12 and 18. -/
def Obligations.StoppedCoreStaysStopped : Prop :=
  (∀ s : State, s.status ≠ .running →
    step s = .next s ∧ s.hostStep = (s, s.report) ∧ ∀ fuel, s.run (fuel + 1) = some (s, s.report)) ∧
  ∀ s t : State, step s = .next t →
    (s.status = .running → s.hostStep.1 = { t with stepPending := s.waiting }) ∧
    (s.waiting = true ↔ s.status = .running ∧ WordsInMemory s 2 ∧
      ((∃ a rest x, decode s.fetchWindow = .ok (.out a, rest) ∧ ValueOf s a x ∧ s.hostOutputReady = false) ∨
        ∃ a rest d, decode s.fetchWindow = .ok (.inp a, rest) ∧ DestOf a d ∧ s.hostInput = [] ∧ s.hostInputEnded = false)) ∧
    (s.waiting = true → s.hostStep.2 = .waiting) ∧
    (s.waiting = false →
      (t.status = .running → s.hostStep.2 = .continues) ∧
      (t.status = .halted → s.hostStep.2 = .halt .halted) ∧
      (t.status = .retHalted → s.hostStep.2 = .halt .retHalted) ∧
      (t.status = .faulted → s.hostStep.2 = .fault t.faultCause))

/-- No step is ever refused or left without a next state: every fault, stop and wait of the spec has one (the model's form of
R138, R232 and R248: logs 1 and 2). -/
def Obligations.StepAnswersNextState : Prop :=
  ∀ s : State, ∃ t, step s = .next t

/-- Faults are precise (R245 by D11): a step that faults writes the fault record and nothing else, with FAULT_PC the pc of
the step (R246 by D10), and a word that fits the cause (R241). That a fault is a next state is log 1. -/
def Obligations.FaultIsPrecise : Prop :=
  ∀ s t : State, s.status = .running → step s = .next t → t.status = .faulted →
    t = { s with status := .faulted, faultCause := t.faultCause, faultPc := s.pc, faultInfo := t.faultInfo } ∧
    InfoFits t.faultCause t.faultInfo

/-- A clean termination (R244 by D15) changes STATUS only, and only HALT and RET on an empty stack terminate cleanly. -/
def Obligations.CleanTerminationKeepsState : Prop :=
  ∀ s t : State, s.status = .running → step s = .next t →
    (t.status = .halted → t = { s with status := .halted } ∧ ∃ rest, decode s.fetchWindow = .ok (.halt, rest)) ∧
    (t.status = .retHalted →
      t = { s with status := .retHalted } ∧ s.stack = [] ∧ ∃ rest, decode s.fetchWindow = .ok (.ret, rest))

/-- FAULT_CAUSE, FAULT_PC and FAULT_INFO are written only when STATUS becomes FAULTED (R46 to R48 by D10). -/
def Obligations.FaultRecordWrittenOnlyByFault : Prop :=
  ∀ s t : State, step s = .next t → ¬ (s.status = .running ∧ t.status = .faulted) →
    t.faultCause = s.faultCause ∧ t.faultPc = s.faultPc ∧ t.faultInfo = s.faultInfo

/-! ### The invariant -/

/-- Every step keeps the invariant: canonical memory, stack entries of at most 32775 (R42), the stack within its capacity
(R9), and status registers that agree (R136, R241, R244, R246). -/
def Obligations.StepKeepsInvariant : Prop :=
  ∀ s t : State, Inv s → step s = .next t → Inv t

/-- Every host request keeps it (the requests of R268; what each leaves: logs 3, 10, 11, 13 and
18). -/
def Obligations.HostRequestKeepsInvariant : Prop :=
  ∀ (s : State) (r : HostRequest), Inv s → Inv (s.serve r).1

/-- The state after reset has it. -/
def Obligations.ResetHasInvariant : Prop :=
  Inv State.reset

/-! ### Reset and the host (70_reset_and_hazards.md, 60_exceptions.md) -/

/-- The reset values of the core's state and of the output record (R51, R280 by D17), after power-on and after every reset
request, from any state. The host's input record, its ready signal and the parameter are not stated here (logs 3, 4, 5
and 11). -/
def Obligations.ResetValues : Prop :=
  ∀ (s r : State), r = State.reset ∨ r = s.hostReset →
    (∀ a, a < 32768 → r.mem.read a = some 0) ∧ (∀ i : RegIndex, r.regs[i] = 0) ∧ r.pc = 0 ∧ r.stack = [] ∧
    r.status = .running ∧ r.faultCause = .none ∧ r.faultPc = 0 ∧ r.faultInfo = 0 ∧ r.hostOutput = []

/-- What the host can write (R268 by D21 and D16): apart from reset and step, no request touches the registers, pc, the
stack, STATUS or the fault record, and none but load touches memory; so only reset makes a stopped core RUNNING (R248; a
stopped core has no step in progress). The requests are the model's list of them, logs 3, 10 and 18. -/
def Obligations.HostRequestFrame : Prop :=
  ∀ (s : State) (r : HostRequest),
    (r ≠ .reset → r ≠ .step →
      (s.serve r).1.regs = s.regs ∧ (s.serve r).1.pc = s.pc ∧ (s.serve r).1.stack = s.stack ∧
      (s.serve r).1.status = s.status ∧ (s.serve r).1.faultCause = s.faultCause ∧ (s.serve r).1.faultPc = s.faultPc ∧
      (s.serve r).1.faultInfo = s.faultInfo ∧ (s.serve r).1.hostOutput = s.hostOutput ∧
      ((∀ bytes, r ≠ .load bytes) → (s.serve r).1.mem = s.mem)) ∧
    (s.status ≠ .running → ((s.serve r).1.status = .running ↔ r = .reset))

/-! ### Frames: what an instruction leaves unchanged (R132) -/

/-- R33: the instructions with a destination slot, and that a register is written only through it: an instruction writes
exactly the register its destination slot names, and one with no register there writes none. -/
def Obligations.OnlyDestinationRegisterWritten : Prop :=
  (∀ i : Instr, (∃ o, (SlotKind.destination, o) ∈ i.slots) ↔
    i.opcode ∈ [Opcode.set, .pop, .eq, .gt, .add, .mult, .mod, .and, .or, .not, .rmem, .inp]) ∧
  ∀ (i : Instr) (s t : State), exec i s = .next t →
    (∀ d, destinationOf i = some d → ∃ v, t.regs = s.regs.set d v) ∧
    (destinationOf i = none → t.regs = s.regs) ∧
    ∀ r : RegIndex, destinationOf i ≠ some r → t.regs[r] = s.regs[r]

/-- Only WMEM writes memory (R61, R132), and it leaves every address but its own as it was. -/
def Obligations.OnlyWmemWritesMemory : Prop :=
  ∀ (i : Instr) (s t : State), s.mem.wf = true → exec i s = .next t →
    ((∀ a b, i ≠ .wmem a b) → ∀ k, t.mem.read k = s.mem.read k) ∧
    ∀ a b addr, i = .wmem a b → ValueOf s a addr → ∀ k, k ≠ addr.toNat → t.mem.read k = s.mem.read k

/-- Only PUSH, POP, CALL and RET use the stack (R39, R132): the others neither change it nor depend on it (R41); and those
four push or pop at most one word. -/
def Obligations.OnlyStackInstructionsUseStack : Prop :=
  ∀ (i : Instr) (s t : State), exec i s = .next t →
    (i.opcode ∉ [Opcode.push, .pop, .call, .ret] →
      t.stack = s.stack ∧ ∀ st, exec i { s with stack := st } = .next { t with stack := st }) ∧
    (t.stack = s.stack ∨ ∃ w, t.stack = s.stack ++ [w] ∨ s.stack = t.stack ++ [w])

/-- Only OUT sends and only IN takes a byte, at most one each (R132, R254); the parameter and the host's own signals are
never written. The fields of State for all these are the model's: logs 3, 5, 10 and 18. -/
def Obligations.OnlyOutAndInUsePorts : Prop :=
  ∀ (i : Instr) (s t : State), exec i s = .next t →
    t.cfg = s.cfg ∧ t.hostInputEnded = s.hostInputEnded ∧ t.hostOutputReady = s.hostOutputReady ∧
    t.stepPending = s.stepPending ∧
    (t.hostOutput = s.hostOutput ∨ i.opcode = .out ∧ ∃ b, t.hostOutput = s.hostOutput ++ [b]) ∧
    (t.hostInput = s.hostInput ∨ i.opcode = .inp ∧ ∃ b, s.hostInput = b :: t.hostInput)

/-- No instruction reads the status registers (R49 by D10): from two states that differ only there, an instruction goes to
two states that differ only there. -/
def Obligations.ProgramCannotSeeStatusRegisters : Prop :=
  ∀ (i : Instr) (s₁ s₂ t₁ t₂ : State), SameButStatus s₁ s₂ → exec i s₁ = .next t₁ → exec i s₂ = .next t₂ →
    SameButStatus t₁ t₂

/-- R134: the next pc of every instruction that completes. -/
def Obligations.NextPcOfEachInstruction : Prop :=
  ∀ (i : Instr) (s t : State), s.pc.toNat < 32768 → s.status = .running → s.waitsOn i = false →
    exec i s = .next t → t.status = .running →
    match i with
    | .jmp a | .call a => ValueOf s a t.pc
    | .jt a b => (ValueOf s a 0 → t.pc.toNat = s.pc.toNat + 3) ∧ ∀ x, ValueOf s a x → x ≠ 0 → ValueOf s b t.pc
    | .jf a b => (ValueOf s a 0 → ValueOf s b t.pc) ∧ ∀ x, ValueOf s a x → x ≠ 0 → t.pc.toNat = s.pc.toNat + 3
    | .ret => ∃ rest, s.stack = rest ++ [t.pc]
    | _ => t.pc.toNat = s.pc.toNat + i.length

/-! ### HALT, NOOP, SET, PUSH, POP -/

/-- HALT (R150 by D15): only STATUS changes. -/
def Obligations.HaltStopsCleanly : Prop :=
  encode .halt = [0] ∧ ∀ s : State, exec .halt s = .next { s with status := .halted }

/-- R151: NOOP does nothing but advance pc; at address 32767 it sets pc to 32768, and the next step faults there. -/
def Obligations.NoopAdvancesPc : Prop :=
  encode .noop = [21] ∧
  (∀ s : State, exec .noop s = .next { s with pc := s.pc + 1 }) ∧
  ∀ s : State, s.pc = 32767 → s.status = .running →
    ∃ t, exec .noop s = .next t ∧ t.pc = 32768 ∧ step t = .next (t.raise ⟨.fetchOutOfBounds, 32768⟩)

/-- R160: SET copies a value into a register and advances pc by 3. -/
def Obligations.SetCopiesValue : Prop :=
  ∀ (s : State) (a b : Operand), TakesResolutionFaults (.set a b) s ∧ ∀ (d : RegIndex) (x : Word),
    WordsInMemory s 3 → DestOf a d → ValueOf s b x →
    encode (.set a b) = [1, a.word, b.word] ∧
    exec (.set a b) s = .next { s with regs := s.regs.set d x, pc := s.pc + 3 }

/-- PUSH (R161 by D3): the whole value goes on top of the stack; only a finite capacity that is reached makes it fault. -/
def Obligations.PushGrowsStack : Prop :=
  ∀ (s : State) (a : Operand), TakesResolutionFaults (.push a) s ∧ ∀ x : Word, WordsInMemory s 2 → ValueOf s a x →
    encode (.push a) = [2, a.word] ∧
    (s.cfg.stackCapacity ≠ .words s.stack.length →
      exec (.push a) s = .next { s with stack := s.stack ++ [x], pc := s.pc + 2 }) ∧
    (s.cfg.stackCapacity = .words s.stack.length → exec (.push a) s = .next (s.raise ⟨.stackOverflow, 0⟩))

/-- R162: POP moves the top of the stack into a register, in full; on an empty stack it faults. -/
def Obligations.PopTakesTop : Prop :=
  ∀ (s : State) (a : Operand), TakesResolutionFaults (.pop a) s ∧ ∀ d : RegIndex, WordsInMemory s 2 → DestOf a d →
    encode (.pop a) = [3, a.word] ∧
    (∀ rest v, s.stack = rest ++ [v] →
      exec (.pop a) s = .next { s with regs := s.regs.set d v, stack := rest, pc := s.pc + 2 }) ∧
    (s.stack = [] → exec (.pop a) s = .next (s.raise ⟨.stackUnderflow, 0⟩))

/-- PUSH and then POP: the register gets the pushed value, and the stack is as before (the source's property in R162, E6). -/
def Obligations.PopUndoesPush : Prop :=
  ∀ (s : State) (a : Operand) (d : RegIndex) (x : Word), WordsInMemory s 4 → ValueOf s a x →
    s.cfg.stackCapacity ≠ .words s.stack.length →
    ∃ t, exec (.push a) s = .next t ∧
      exec (.pop (.reg d)) t = .next { s with regs := s.regs.set d x, pc := s.pc + 4 }

/-! ### EQ, GT -/

/-- EQ and GT (43_compare.md) write 1 or 0, comparing the resolved values, unsigned. What R170's corner case `EQ r0 r1 32770`
means as words is the model's choice (log 17): its last operand is r2, so with r1 = 32770 and r2 = 0 this says that EQ writes
0, where the corner case says 1. -/
def Obligations.ComparisonsWriteTruth : Prop :=
  ∀ (s : State) (a b c : Operand), TakesResolutionFaults (.eq a b c) s ∧ TakesResolutionFaults (.gt a b c) s ∧
    ∀ (d : RegIndex) (x y : Word), WordsInMemory s 4 → DestOf a d → ValueOf s b x → ValueOf s c y →
    encode (.eq a b c) = [4, a.word, b.word, c.word] ∧ encode (.gt a b c) = [5, a.word, b.word, c.word] ∧
    exec (.eq a b c) s = .next { s with regs := s.regs.set d (if x = y then 1 else 0), pc := s.pc + 4 } ∧
    exec (.gt a b c) s = .next { s with regs := s.regs.set d (if x.toNat > y.toNat then 1 else 0), pc := s.pc + 4 }

/-! ### JMP, JT, JF, CALL, RET -/

/-- R180: JMP sets pc to the value, any word of 0..32775; an address out of memory faults at the next step's fetch. -/
def Obligations.JmpSetsPc : Prop :=
  ∀ (s : State) (a : Operand), TakesResolutionFaults (.jmp a) s ∧ ∀ x : Word, WordsInMemory s 2 → ValueOf s a x →
    encode (.jmp a) = [6, a.word] ∧ exec (.jmp a) s = .next { s with pc := x } ∧
    (32768 ≤ x.toNat → s.status = .running →
      step { s with pc := x } = .next (State.raise { s with pc := x } ⟨.fetchOutOfBounds, x⟩))

/-- JT and JF (R181, R182, by D13): exact complements; both operands are resolved whether or not the jump is taken, and a
target that faults does so when the jump is not taken as well. -/
def Obligations.ConditionalJumps : Prop :=
  ∀ (s : State) (a b : Operand), TakesResolutionFaults (.jt a b) s ∧ TakesResolutionFaults (.jf a b) s ∧
    ∀ x : Word, WordsInMemory s 3 → ValueOf s a x →
    encode (.jt a b) = [7, a.word, b.word] ∧ encode (.jf a b) = [8, a.word, b.word] ∧
    (∀ y, ValueOf s b y →
      exec (.jt a b) s = .next { s with pc := if x ≠ 0 then y else s.pc + 3 } ∧
      exec (.jf a b) s = .next { s with pc := if x = 0 then y else s.pc + 3 }) ∧
    (∀ w, b = .invalid w →
      exec (.jt a b) s = .next (s.raise ⟨.invalidOperand, w⟩) ∧
      exec (.jf a b) s = .next (s.raise ⟨.invalidOperand, w⟩))

/-- CALL (R183 by D3): push pc + 2, not reduced, and jump to the value. -/
def Obligations.CallPushesReturnAddress : Prop :=
  ∀ (s : State) (a : Operand), TakesResolutionFaults (.call a) s ∧ ∀ x : Word, WordsInMemory s 2 → ValueOf s a x →
    encode (.call a) = [17, a.word] ∧
    (s.cfg.stackCapacity ≠ .words s.stack.length →
      exec (.call a) s = .next { s with stack := s.stack ++ [s.pc + 2], pc := x } ∧ (s.pc + 2).toNat = s.pc.toNat + 2) ∧
    (s.cfg.stackCapacity = .words s.stack.length → exec (.call a) s = .next (s.raise ⟨.stackOverflow, 0⟩))

/-- RET (R184 by D15): pc is the popped word, in full; on an empty stack a clean termination that leaves pc. -/
def Obligations.RetPopsPc : Prop :=
  encode .ret = [18] ∧
  ∀ s : State,
    (∀ rest v, s.stack = rest ++ [v] → exec .ret s = .next { s with stack := rest, pc := v }) ∧
    (s.stack = [] → exec .ret s = .next { s with status := .retHalted })

/-- CALL and then RET: control is at the instruction after the CALL, and the stack is as before (the source's property in
R183, E7). -/
def Obligations.RetReturnsAfterCall : Prop :=
  ∀ (s : State) (a : Operand) (x : Word), WordsInMemory s 2 → ValueOf s a x →
    s.cfg.stackCapacity ≠ .words s.stack.length →
    ∃ t, exec (.call a) s = .next t ∧ t.pc = x ∧ exec .ret t = .next { s with pc := s.pc + 2 }

/-! ### ADD, MULT, MOD, AND, OR, NOT -/

/-- R201: ADD writes the exact sum modulo 32768, always in 0..32767. -/
def Obligations.AddIsModulo32768 : Prop :=
  ∀ (s : State) (a b c : Operand), TakesResolutionFaults (.add a b c) s ∧
    ∀ (d : RegIndex) (x y : Word), WordsInMemory s 4 → DestOf a d → ValueOf s b x → ValueOf s c y →
    encode (.add a b c) = [9, a.word, b.word, c.word] ∧
    ∃ v : Word, v.toNat = (x.toNat + y.toNat) % 32768 ∧
      exec (.add a b c) s = .next { s with regs := s.regs.set d v, pc := s.pc + 4 }

/-- R202: MULT writes the exact product modulo 32768, always in 0..32767. -/
def Obligations.MultIsModulo32768 : Prop :=
  ∀ (s : State) (a b c : Operand), TakesResolutionFaults (.mult a b c) s ∧
    ∀ (d : RegIndex) (x y : Word), WordsInMemory s 4 → DestOf a d → ValueOf s b x → ValueOf s c y →
    encode (.mult a b c) = [10, a.word, b.word, c.word] ∧
    ∃ v : Word, v.toNat = (x.toNat * y.toNat) % 32768 ∧
      exec (.mult a b c) s = .next { s with regs := s.regs.set d v, pc := s.pc + 4 }

/-- MOD (R203 by D8): the remainder, with no mask; a zero divisor faults. -/
def Obligations.ModIsRemainder : Prop :=
  ∀ (s : State) (a b c : Operand), TakesResolutionFaults (.mod a b c) s ∧
    ∀ (d : RegIndex) (x y : Word), WordsInMemory s 4 → DestOf a d → ValueOf s b x → ValueOf s c y →
    encode (.mod a b c) = [11, a.word, b.word, c.word] ∧
    (y ≠ 0 → ∃ v : Word, v.toNat = x.toNat % y.toNat ∧
      exec (.mod a b c) s = .next { s with regs := s.regs.set d v, pc := s.pc + 4 }) ∧
    (y = 0 → exec (.mod a b c) s = .next (s.raise ⟨.divideByZero, 0⟩))

/-- R204 and R205: AND and OR of all 16 bits, with no mask. -/
def Obligations.AndOrAreUnmasked : Prop :=
  ∀ (s : State) (a b c : Operand), TakesResolutionFaults (.and a b c) s ∧ TakesResolutionFaults (.or a b c) s ∧
    ∀ (d : RegIndex) (x y : Word), WordsInMemory s 4 → DestOf a d → ValueOf s b x → ValueOf s c y →
    encode (.and a b c) = [12, a.word, b.word, c.word] ∧ encode (.or a b c) = [13, a.word, b.word, c.word] ∧
    exec (.and a b c) s = .next { s with regs := s.regs.set d (x &&& y), pc := s.pc + 4 } ∧
    exec (.or a b c) s = .next { s with regs := s.regs.set d (x ||| y), pc := s.pc + 4 }

/-- R206: NOT writes the complement of bits 14..0, with bit 15 zero; done twice it gives back any 15-bit value. -/
def Obligations.NotIsComplement15 : Prop :=
  ∀ (s : State) (a b : Operand), TakesResolutionFaults (.not a b) s ∧ ∀ (d : RegIndex) (x : Word),
    WordsInMemory s 3 → DestOf a d → ValueOf s b x →
    encode (.not a b) = [14, a.word, b.word] ∧
    ∃ v : Word, v = ~~~x &&& 0x7FFF ∧ v.toNat = 32767 - x.toNat % 32768 ∧
      exec (.not a b) s = .next { s with regs := s.regs.set d v, pc := s.pc + 3 } ∧
      (x.toNat ≤ 32767 → ~~~v &&& 0x7FFF = x)

/-! ### RMEM, WMEM and memory -/

/-- R221: RMEM copies the memory word at the value into a register, in full; an address of 32768 or more faults. -/
def Obligations.RmemReadsMemory : Prop :=
  ∀ (s : State) (a b : Operand), TakesResolutionFaults (.rmem a b) s ∧ ∀ (d : RegIndex) (addr : Word),
    WordsInMemory s 3 → DestOf a d → ValueOf s b addr →
    encode (.rmem a b) = [15, a.word, b.word] ∧
    (addr.toNat < 32768 → ∃ w, s.mem.read addr.toNat = some w ∧
      exec (.rmem a b) s = .next { s with regs := s.regs.set d w, pc := s.pc + 3 }) ∧
    (32768 ≤ addr.toNat → exec (.rmem a b) s = .next (s.raise ⟨.dataOutOfBounds, addr⟩))

/-- R222: WMEM writes the value at the address its first operand gives and leaves every other word; an address of 32768 or
more faults. Memory is in canonical form, which `StepKeepsInvariant` keeps. -/
def Obligations.WmemWritesMemory : Prop :=
  ∀ (s : State) (a b : Operand), TakesResolutionFaults (.wmem a b) s ∧ ∀ (addr x : Word),
    s.mem.wf = true → WordsInMemory s 3 → ValueOf s a addr → ValueOf s b x →
    encode (.wmem a b) = [16, a.word, b.word] ∧
    (addr.toNat < 32768 → ∃ m : Memory, exec (.wmem a b) s = .next { s with mem := m, pc := s.pc + 3 } ∧
      m.read addr.toNat = some x ∧ ∀ k, k ≠ addr.toNat → m.read k = s.mem.read k) ∧
    (32768 ≤ addr.toNat → exec (.wmem a b) s = .next (s.raise ⟨.dataOutOfBounds, addr⟩))

/-- The memory contract (R62 by D10, R65 by D22, R71): inside the space a read after a write gives the word written, every
other word is as before, and the form stays canonical; outside it neither access answers. -/
def Obligations.MemoryReadAfterWrite : Prop :=
  ∀ (m : Memory) (a : Nat) (v : Word), m.wf = true →
    (a < 32768 → ∃ m', m.write a v = some m' ∧ m'.wf = true ∧ m'.read a = some v ∧ ∀ b, b ≠ a → m'.read b = m.read b) ∧
    (32768 ≤ a → m.read a = none ∧ m.write a v = none)

/-- Fetch sees a WMEM from the very next step on, and the WMEM's own step does not (R74 and R75, which the spec derives
from R71 and R66). -/
def Obligations.StoreIsSeenByNextFetch : Prop :=
  ∀ (s : State) (a b : Operand) (rest : List Word) (addr x : Word), s.mem.wf = true → s.status = .running →
    decode s.fetchWindow = .ok (.wmem a b, rest) → WordsInMemory s 3 → ValueOf s a addr → ValueOf s b x →
    addr.toNat < 32768 →
    ∃ t, step s = .next t ∧ t.pc = s.pc + 3 ∧ t.status = .running ∧ t.mem.read addr.toNat = some x ∧
      (t.pc = addr → t.fetchWindow.head? = some x)

/-- The arbiter (R66, R68, by D18): the memory after a step is the memory before it with the step's accesses done in their
order; every read returns the word memory held; and a write, if there is one, comes last. A core that is stopped, or whose pc is
out of memory, makes no access. Any other makes the opcode fetch at pc, then operand fetches at pc+1, pc+2, pc+3 in order
(all its opcode has, unless an operand faults; none for an illegal opcode), then at most one data access: RMEM's read or
WMEM's write when they complete, and none in any other instruction and in a step that faults. Going on with a step in progress
makes no fetch again, and no access at all when that step is what it must be, an OUT or IN (R66, R232); the mark that tells it
is the model's choice (log 18). -/
def Obligations.AccessesReplayToMemory : Prop :=
  ∀ s t : State, step s = .next t →
    t.mem = s.stepAccesses.foldl MemAccess.apply s.mem ∧
    (∀ a w, MemAccess.read a w ∈ s.stepAccesses → s.mem.read a = some w) ∧
    (∀ a w before after, s.stepAccesses = before ++ MemAccess.write a w :: after → after = []) ∧
    (s.status ≠ .running ∨ 32768 ≤ s.pc.toNat → s.stepAccesses = []) ∧
    (s.midStep = true → StepInProgressFits s → s.stepAccesses = []) ∧
    (s.status = .running → s.pc.toNat < 32768 → ∃ n data,
      s.stepAccesses = (if s.midStep then [] else s.fetchReads n) ++ data ∧ data.length ≤ 1 ∧ (t.status = .faulted → data = []) ∧
      (∀ op, s.mem.read s.pc.toNat = some op → 22 ≤ op.toNat → n = 0) ∧
      ∀ i rest, decode s.fetchWindow = .ok (i, rest) →
        n < i.length ∧ ((∀ f, ¬ FirstOperandFault s 1 i.slots f) → n + 1 = i.length) ∧
        (t.status ≠ .faulted →
          match i with
          | .rmem _ b => ∀ addr, ValueOf s b addr → ∃ w, data = [.read addr.toNat w]
          | .wmem a b => ∀ addr x, ValueOf s a addr → ValueOf s b x → data = [.write addr.toNat x]
          | _ => data = []))

/-! ### OUT, IN and the ports -/

/-- OUT (R230 by D21): the low 8 bits of the value go to the output record when the port takes them; until then OUT waits
with nothing written (R232). How the port says that it takes a byte, and the step of a waiting core, are the model's: logs 2
and 3. -/
def Obligations.OutSendsLowByte : Prop :=
  ∀ (s : State) (a : Operand), TakesResolutionFaults (.out a) s ∧ ∀ x : Word, WordsInMemory s 2 → ValueOf s a x →
    encode (.out a) = [19, a.word] ∧
    (s.hostOutputReady = true → ∃ b : Byte, b.toNat = x.toNat % 256 ∧
      exec (.out a) s = .next { s with hostOutput := s.hostOutput ++ [b], pc := s.pc + 2 }) ∧
    (s.hostOutputReady = false → exec (.out a) s = .next s)

/-- IN (R231 and R233 by D9): the next byte, zero-extended, goes to the register and is consumed; end-of-input faults; with
neither, IN waits with nothing written (R232 by D21; the step of a waiting core is the model's, log 2). -/
def Obligations.InTakesByte : Prop :=
  ∀ (s : State) (a : Operand), TakesResolutionFaults (.inp a) s ∧ ∀ d : RegIndex, WordsInMemory s 2 → DestOf a d →
    encode (.inp a) = [20, a.word] ∧
    (∀ b rest, s.hostInput = b :: rest → ∃ v : Word, v.toNat = b.toNat ∧
      exec (.inp a) s = .next { s with regs := s.regs.set d v, hostInput := rest, pc := s.pc + 2 }) ∧
    (s.hostInput = [] → s.hostInputEnded = true → exec (.inp a) s = .next (s.raise ⟨.inputEof, 0⟩)) ∧
    (s.hostInput = [] → s.hostInputEnded = false → exec (.inp a) s = .next s)

/-- A step waits only in an OUT the port does not take or an IN with nothing offered (R232, R298), it changes nothing
(R139), and the host can always end the wait (R257). The step of a waiting core is the model's: logs 2 and 3. -/
def Obligations.WaitsOnlyOnHost : Prop :=
  ∀ s : State,
    (s.waiting = true → step s = .next s ∧
      ((∃ a rest, decode s.fetchWindow = .ok (.out a, rest) ∧ s.hostOutputReady = false) ∨
        ∃ a rest, decode s.fetchWindow = .ok (.inp a, rest) ∧ s.hostInput = [] ∧ s.hostInputEnded = false)) ∧
    (s.setOutputReady true).endInput.waiting = false

/-- Once the host has signalled end-of-input, no request takes that back and none adds input (R268 by D21; log
13). That a reset request keeps the signal and the remaining input is the model's choice (log 11). -/
def Obligations.EndOfInputStands : Prop :=
  ∀ (s : State) (r : HostRequest), s.hostInputEnded = true →
    (s.serve r).1.hostInputEnded = true ∧ ∃ taken, s.hostInput = taken ++ (s.serve r).1.hostInput

/-! ### Run, load and the fault table -/

/-- run (R266) repeats the step request: it returns what a step reports when that is HALT or FAULT, and goes on from the state
after the step otherwise. When it returns, the core has stopped and the answer is its outcome; more steps change neither. The
bound on the steps is the model's: log 12; so is that a wait goes on, and that a run asked for while a step is in progress goes
on with that step: logs 2 and 18. -/
def Obligations.RunReturnsTheOutcome : Prop :=
  (∀ s : State, s.run 0 = none) ∧
  (∀ (fuel : Nat) (s t : State),
    (∀ why, s.hostStep = (t, .halt why) → s.run (fuel + 1) = some (t, .halt why)) ∧
    (∀ cause, s.hostStep = (t, .fault cause) → s.run (fuel + 1) = some (t, .fault cause)) ∧
    (s.hostStep = (t, .continues) ∨ s.hostStep = (t, .waiting) → s.run (fuel + 1) = t.run fuel)) ∧
  ∀ (fuel : Nat) (s t : State) (r : StepReport), s.run fuel = some (t, r) →
    t.status ≠ .running ∧ r = t.report ∧ ∀ more, s.run (fuel + more) = some (t, r)

/-- R285 and R286: load writes word `i` of the image, little-endian, to address `i`, and ignores a last odd byte. -/
def Obligations.LoadWritesLittleEndianWords : Prop :=
  ∀ (s : State) (bytes : List Byte), s.mem.wf = true → bytes.length / 2 ≤ 32768 →
    (∀ i lo hi, bytes[2 * i]? = some lo → bytes[2 * i + 1]? = some hi →
      ∃ w : Word, w.toNat = lo.toNat + 256 * hi.toNat ∧ (s.load bytes).1.mem.read i = some w) ∧
    (bytes.length % 2 = 1 → s.load bytes = s.load bytes.dropLast)

/-- Load's frame (R287, R288, by D16): an image that fits changes addresses below its word count and nothing else, and
answers OK; one that does not fit changes nothing and answers LOAD_ERROR. -/
def Obligations.LoadFrame : Prop :=
  ∀ (s : State) (bytes : List Byte), s.mem.wf = true →
    (bytes.length / 2 ≤ 32768 → (s.load bytes).2 = .ok ∧ s.load bytes = ({ s with mem := (s.load bytes).1.mem }, .ok) ∧
      ∀ k, bytes.length / 2 ≤ k → (s.load bytes).1.mem.read k = s.mem.read k) ∧
    (32768 < bytes.length / 2 → s.load bytes = (s, .loadError))

/-- The faults each instruction can raise (R242, which the spec derives), and STACK_OVERFLOW only with a finite capacity
(R9 by D3). -/
def Obligations.FaultsOfEachInstruction : Prop :=
  ∀ (i : Instr) (s t : State), s.status = .running → exec i s = .next t → t.status = .faulted →
    t.faultCause ∈ possibleFaults i ∧
    (t.faultCause = .stackOverflow → ∃ k, s.cfg.stackCapacity = .words k)

/-! ### Requests while a step is in progress -/

/-- Load never overlaps an instruction's accesses (R67 by D16), nor does a reset or a status read fall inside a step (R262 by
D2): while a step is in progress none of them is taken and nothing changes, and between steps each does what it does. A step
request is pending exactly while its instruction waits. Until the next step request, whatever else the host asks leaves the
core's state and the fetched instruction as they are, so the instruction that waits is the one that completes. A step in
progress is an OUT or IN whose operand has resolved, at reset and after every request. The pending mark and the reply
`notTaken` are the model's choice: log 18. -/
def Obligations.RequestsOnlyBetweenSteps : Prop :=
  (∀ (s : State) (bytes : List Byte), s.midStep = true →
    s.serve (.load bytes) = (s, .notTaken) ∧ s.serve .reset = (s, .notTaken) ∧ s.serve .readStatus = (s, .notTaken)) ∧
  (∀ (s : State) (bytes : List Byte), s.midStep = false →
    s.serve (.load bytes) = ((s.load bytes).1, .loaded (s.load bytes).2) ∧ s.serve .reset = (s.hostReset, .nothing) ∧
    s.serve .readStatus = (s, .status s.statusRead)) ∧
  (∀ s : State, s.status = .running → (s.serve .step).1.midStep = s.waiting ∧
    ((s.serve .step).2 = .stepped .waiting ↔ s.waiting = true)) ∧
  (∀ (s t : State) (requests : List HostRequest), s.midStep = true → .step ∉ requests →
    t = requests.foldl (fun u r => (u.serve r).1) s →
    t.midStep = true ∧ t.mem = s.mem ∧ t.regs = s.regs ∧ t.pc = s.pc ∧ t.stack = s.stack ∧ t.status = s.status ∧
    t.faultCause = s.faultCause ∧ t.faultPc = s.faultPc ∧ t.faultInfo = s.faultInfo ∧ t.hostOutput = s.hostOutput ∧
    t.fetchInstr = s.fetchInstr) ∧
  StepInProgressFits State.reset ∧ ∀ (s : State) (r : HostRequest), StepInProgressFits s → StepInProgressFits (s.serve r).1
end

