-- ==== Sys2Proof/Laws/Decode.lean ====
section
/-! SUPPORT. The small laws of the operand words, the opcode words and the words of an image. -/

namespace Sys2Proof

/-- Reading a well-formed operand's word gives that operand. -/
theorem Operand.ofWord_word (o : Operand) (h : o.WellFormed) : Operand.ofWord o.word = o := by
  cases o with
  | lit n =>
    have hn : n.toNat < 32768 := n.isLt
    have hw : (Operand.lit n).word.toNat = n.toNat := by simp [Operand.word]; omega
    unfold Operand.ofWord
    rw [if_pos (by rw [hw]; exact hn)]
    simp [Operand.word]
  | reg i =>
    have hi := i.isLt
    have hw : (Operand.reg i).word.toNat = 32768 + i.val := by simp [Operand.word]; omega
    unfold Operand.ofWord
    rw [if_neg (by rw [hw]; simp), if_pos (by rw [hw]; simp; omega), hw]
    congr 1
    ext
    simp [Fin.ofNat]
    omega
  | invalid w =>
    simp only [Operand.WellFormed, Config.invalidBase] at h
    unfold Operand.ofWord Operand.word
    rw [if_neg (by simp; omega), if_neg (by simp; omega)]

/-- Every word is the word of the operand it is read as. -/
theorem Operand.word_ofWord (w : Word) : (Operand.ofWord w).word = w := by
  unfold Operand.ofWord
  split
  · next h =>
    simp only [Config.regBase] at h
    apply BitVec.eq_of_toNat_eq
    simp [Operand.word]
    omega
  · split
    · next h1 h2 =>
      simp only [Config.regBase, Config.invalidBase] at h1 h2
      apply BitVec.eq_of_toNat_eq
      simp [Operand.word, Fin.ofNat]
      omega
    · rfl

/-- A word is read as a well-formed operand. -/
theorem Operand.wellFormed_ofWord (w : Word) : (Operand.ofWord w).WellFormed := by
  unfold Operand.ofWord
  split
  · trivial
  · split
    · trivial
    · next h => simpa using h

/-- An opcode's word selects it. -/
theorem Opcode.ofWord_word (o : Opcode) : Opcode.ofWord o.word = some o := by
  cases o <;> rfl

/-- A word that selects an opcode is that opcode's word. -/
theorem Opcode.word_of_ofWord (w : Word) (o : Opcode) (h : Opcode.ofWord w = some o) : w = o.word := by
  unfold Opcode.ofWord at h
  apply BitVec.eq_of_toNat_eq
  split at h <;> first | (cases h; done) | (cases h; assumption)

/-- No opcode is selected exactly from 22 up (R98). -/
theorem Opcode.ofWord_eq_none_iff (w : Word) : Opcode.ofWord w = none ↔ 22 ≤ w.toNat := by
  constructor
  · intro h
    by_contra hc
    unfold Opcode.ofWord at h
    generalize w.toNat = n at h hc
    have hn : n < 22 := by omega
    interval_cases n <;> cases h
  · intro h
    unfold Opcode.ofWord
    split <;> first | rfl | omega

/-- An instruction has the operands its format asks for. -/
theorem Instr.operands_length (i : Instr) : i.operands.length = i.opcode.format.kinds.length := by
  cases i <;> rfl

/-- At most three of them. -/
theorem Opcode.kinds_length (o : Opcode) : o.format.kinds.length ≤ 3 := by
  cases o <;> decide

/-! ### Image bytes -/

/-- An image of `L` bytes has `L / 2` words (R285). -/
theorem wordsOfBytes_length (bytes : List Byte) : (wordsOfBytes bytes).length = bytes.length / 2 := by
  induction bytes using wordsOfBytes.induct with
  | case1 lo hi rest ih => simp [wordsOfBytes, ih]; omega
  | case2 l h =>
    rcases l with _ | ⟨a, _ | ⟨b, r⟩⟩
    · rfl
    · simp [wordsOfBytes]
    · exact absurd rfl (h a b r)

/-- Word `i` is made of bytes `2i` and `2i+1`, the low half first (R63, R285). -/
theorem wordsOfBytes_getElem? (bytes : List Byte) (i : Nat) (lo hi : Byte) (hlo : bytes[2 * i]? = some lo)
    (hhi : bytes[2 * i + 1]? = some hi) :
    (wordsOfBytes bytes)[i]? = some (BitVec.ofNat 16 (lo.toNat + 256 * hi.toNat)) := by
  induction bytes using wordsOfBytes.induct generalizing i with
  | case1 a b rest ih =>
    cases i with
    | zero =>
      simp at hlo hhi
      subst hlo hhi
      rfl
    | succ i =>
      rw [show 2 * (i + 1) = 2 * i + 1 + 1 by omega] at hlo hhi
      simp at hlo hhi
      simpa [wordsOfBytes] using ih i hlo hhi
  | case2 l h =>
    rcases l with _ | ⟨a, _ | ⟨b, r⟩⟩
    · simp at hlo
    · simp at hhi
    · exact absurd rfl (h a b r)

/-- A last odd byte makes no word (R286). -/
theorem wordsOfBytes_dropLast (bytes : List Byte) (h : bytes.length % 2 = 1) :
    wordsOfBytes bytes.dropLast = wordsOfBytes bytes := by
  induction bytes using wordsOfBytes.induct with
  | case1 lo hi rest ih =>
    cases rest with
    | nil => simp at h
    | cons x xs =>
      have := ih (by simp at h ⊢; omega)
      simp only [wordsOfBytes, List.dropLast_cons_cons]
      rw [this]
  | case2 l hn =>
    rcases l with _ | ⟨a, _ | ⟨b, r⟩⟩
    · rfl
    · rfl
    · exact absurd rfl (hn a b r)

end Sys2Proof
end

