-- ==== Sys2Proof/Laws/Memory.lean ====
section
/-! SUPPORT. The laws of memory: a read after a write, the canonical form and that every memory operation keeps it, and that
memories in canonical form which read alike are equal. -/

namespace Sys2Proof.Machine

@[simp] theorem Memory.peek_nil (a : Nat) : Memory.peek [] a = 0 := rfl

/-- Nothing is listed below the first address of a canonical memory, so it reads 0 there. -/
theorem Memory.peek_below (m : Memory) (lo a : Nat) (hw : Memory.wfFrom lo m = true) (ha : a < lo) : m.peek a = 0 := by
  induction m generalizing lo with
  | nil => rfl
  | cons c rest ih =>
    obtain ⟨k, w⟩ := c
    simp only [Memory.wfFrom, Bool.and_eq_true, decide_eq_true_eq] at hw
    obtain ⟨⟨⟨hk, -⟩, -⟩, hrest⟩ := hw
    have hka : k ≠ a := by omega
    simp only [Memory.peek, hka, if_false]
    exact ih (k + 1) hrest (by omega)

/-- A lower bound may be lowered. -/
theorem Memory.wfFrom_mono (m : Memory) (lo lo' : Nat) (hw : Memory.wfFrom lo m = true) (h : lo' ≤ lo) :
    Memory.wfFrom lo' m = true := by
  cases m with
  | nil => rfl
  | cons c rest =>
    obtain ⟨k, w⟩ := c
    simp only [Memory.wfFrom, Bool.and_eq_true, decide_eq_true_eq] at hw ⊢
    exact ⟨⟨⟨by omega, hw.1.1.2⟩, hw.1.2⟩, hw.2⟩

/-- What a word reads as after a write to a canonical memory: the written word at its address, and every other word as
before. -/
theorem Memory.peek_poke (m : Memory) (lo a b : Nat) (v : Word) (hw : Memory.wfFrom lo m = true) :
    (m.poke a v).peek b = if a = b then v else m.peek b := by
  induction m generalizing lo with
  | nil =>
    by_cases hab : a = b <;> by_cases hv : v = 0#16 <;> simp [Memory.poke, Memory.peek, hv, hab]
  | cons c rest ih =>
    obtain ⟨k, w⟩ := c
    have hw' := hw
    simp only [Memory.wfFrom, Bool.and_eq_true, decide_eq_true_eq] at hw
    obtain ⟨⟨⟨hk, -⟩, -⟩, hrest⟩ := hw
    simp only [Memory.poke]
    split
    · next hak =>
      split
      · next hv =>
        split
        · next hab =>
          subst hab hv
          have hb := Memory.peek_below rest (k + 1) a hrest (by omega)
          have hka : k ≠ a := by omega
          simp [Memory.peek, hka, hb]
        · rfl
      · by_cases hab : a = b <;> simp [Memory.peek, hab]
    · split
      · next hak =>
        subst hak
        split
        · next hv =>
          split
          · next hab =>
            subst hab hv
            exact Memory.peek_below rest (a + 1) a hrest (by omega)
          · next hab => simp [Memory.peek, hab]
        · by_cases hab : a = b <;> simp [Memory.peek, hab]
      · next h1 h2 =>
        simp only [Memory.peek, ih (k + 1) hrest]
        by_cases hkb : k = b
        · have : a ≠ b := by omega
          simp [hkb, this]
        · simp [hkb]

/-- A write keeps the canonical form. -/
theorem Memory.wfFrom_poke (m : Memory) (lo a : Nat) (v : Word) (hw : Memory.wfFrom lo m = true) (hlo : lo ≤ a)
    (ha : a < Config.memWords) : Memory.wfFrom lo (m.poke a v) = true := by
  induction m generalizing lo with
  | nil => by_cases hv : v = 0 <;> simp_all [Memory.poke, Memory.wfFrom]
  | cons c rest ih =>
    obtain ⟨k, w⟩ := c
    have hw' := hw
    simp only [Memory.wfFrom, Bool.and_eq_true, decide_eq_true_eq] at hw
    obtain ⟨⟨⟨hk, hkm⟩, hnz⟩, hrest⟩ := hw
    simp only [Memory.poke]
    split
    · next hak =>
      split
      · exact hw'
      · next hv =>
        simp only [Memory.wfFrom, Bool.and_eq_true, decide_eq_true_eq]
        exact ⟨⟨⟨hlo, ha⟩, hv⟩, ⟨⟨by omega, hkm⟩, hnz⟩, hrest⟩
    · split
      · next hak =>
        subst hak
        split
        · exact Memory.wfFrom_mono rest (a + 1) lo hrest (by omega)
        · next hv =>
          simp only [Memory.wfFrom, Bool.and_eq_true, decide_eq_true_eq]
          exact ⟨⟨⟨hlo, ha⟩, hv⟩, hrest⟩
      · next h1 h2 =>
        simp only [Memory.wfFrom, Bool.and_eq_true, decide_eq_true_eq]
        exact ⟨⟨⟨hk, hkm⟩, hnz⟩, ih (k + 1) hrest (by omega)⟩

/-- A write keeps the canonical form. -/
theorem Memory.wf_poke (m : Memory) (a : Nat) (v : Word) (hw : m.wf = true) (ha : a < Config.memWords) :
    (m.poke a v).wf = true :=
  Memory.wfFrom_poke m 0 a v hw (Nat.zero_le a) ha

/-- A write through the port lies in memory and keeps the canonical form. -/
theorem Memory.write_some (m m' : Memory) (a : Nat) (v : Word) (h : m.write a v = some m') :
    a < Config.memWords ∧ m' = m.poke a v := by
  unfold Memory.write at h
  split at h
  · next ha => exact ⟨ha, (Option.some.inj h).symm⟩
  · cases h

/-- An access answers exactly the addresses of the space (R62). -/
theorem Memory.read_eq_none_iff (m : Memory) (a : Nat) : m.read a = none ↔ 32768 ≤ a := by
  simp [Memory.read]

/-- An access answers exactly the addresses of the space (R62). -/
theorem Memory.write_eq_none_iff (m : Memory) (a : Nat) (v : Word) : m.write a v = none ↔ 32768 ≤ a := by
  simp [Memory.write]

/-- Writing a run of words keeps the canonical form. -/
theorem Memory.wf_pokeAll (ws : List Word) (m : Memory) (a : Nat) (hw : m.wf = true) : (m.pokeAll a ws).wf = true := by
  induction ws generalizing m a with
  | nil => exact hw
  | cons w ws ih =>
    simp only [Memory.pokeAll]
    split
    · next ha => exact ih _ _ (Memory.wf_poke m a w hw ha)
    · exact ih _ _ hw

/-- What a word reads as after a run of words was written from `a` on. -/
theorem Memory.peek_pokeAll (ws : List Word) (m : Memory) (a b : Nat) (hw : m.wf = true) (hb : b < 32768) :
    (m.pokeAll a ws).peek b = if a ≤ b ∧ b < a + ws.length then ws.getD (b - a) 0 else m.peek b := by
  induction ws generalizing m a with
  | nil =>
    have h : ¬ (a ≤ b ∧ b < a + ([] : List Word).length) := by simp
    rw [if_neg h]
    rfl
  | cons w ws ih =>
    simp only [Memory.pokeAll]
    have hw2 : (if a < Config.memWords then m.poke a w else m).wf = true := by
      split
      · next ha => exact Memory.wf_poke m a w hw ha
      · exact hw
    rw [ih _ _ hw2]
    by_cases hab : a = b
    · subst hab
      have h1 : ¬ (a + 1 ≤ a ∧ a < a + 1 + ws.length) := by omega
      have h2 : a ≤ a ∧ a < a + (w :: ws).length := by simp
      rw [if_neg h1, if_pos h2, if_pos hb, Memory.peek_poke m 0 a a w hw]
      simp
    · have hpk : (if a < Config.memWords then m.poke a w else m).peek b = m.peek b := by
        split
        · rw [Memory.peek_poke m 0 a b w hw, if_neg hab]
        · rfl
      rw [hpk]
      by_cases hin : a + 1 ≤ b ∧ b < a + 1 + ws.length
      · have h2 : a ≤ b ∧ b < a + (w :: ws).length := by simp; omega
        have h3 : b - a = (b - (a + 1)) + 1 := by omega
        rw [if_pos hin, if_pos h2, h3]
        simp
      · have h2 : ¬ (a ≤ b ∧ b < a + (w :: ws).length) := by simp; omega
        rw [if_neg hin, if_neg h2]

/-- Canonical memories that read alike are equal data. -/
theorem Memory.ext_of_wfFrom (m m' : Memory) (lo : Nat) (hw : Memory.wfFrom lo m = true)
    (hw' : Memory.wfFrom lo m' = true) (h : ∀ a, m.peek a = m'.peek a) : m = m' := by
  induction m generalizing m' lo with
  | nil =>
    cases m' with
    | nil => rfl
    | cons c rest =>
      obtain ⟨k, w⟩ := c
      simp only [Memory.wfFrom, Bool.and_eq_true, decide_eq_true_eq] at hw'
      exact absurd (by simpa [Memory.peek] using (h k).symm) hw'.1.2
  | cons c rest ih =>
    obtain ⟨k, w⟩ := c
    have hm := hw
    simp only [Memory.wfFrom, Bool.and_eq_true, decide_eq_true_eq] at hw
    cases m' with
    | nil => exact absurd (by simpa [Memory.peek] using h k) hw.1.2
    | cons c' rest' =>
      obtain ⟨k', w'⟩ := c'
      have hm' := hw'
      simp only [Memory.wfFrom, Bool.and_eq_true, decide_eq_true_eq] at hw'
      have hk : k = k' := by
        by_contra hne
        rcases Nat.lt_or_gt_of_ne hne with hlt | hgt
        · have h1 := h k
          have h2 : k' ≠ k := by omega
          simp only [Memory.peek, if_pos, h2, if_false] at h1
          rw [Memory.peek_below rest' (k' + 1) k hw'.2 (by omega)] at h1
          exact hw.1.2 h1
        · have h1 := h k'
          simp only [Memory.peek, if_pos, hne, if_false] at h1
          rw [Memory.peek_below rest (k + 1) k' hw.2 (by omega)] at h1
          exact hw'.1.2 h1.symm
      subst hk
      have hww : w = w' := by simpa [Memory.peek] using h k
      subst hww
      congr 1
      refine ih rest' (k + 1) hw.2 hw'.2 fun a => ?_
      by_cases hak : a < k + 1
      · rw [Memory.peek_below rest (k + 1) a hw.2 hak, Memory.peek_below rest' (k + 1) a hw'.2 hak]
      · have hne : k ≠ a := by omega
        simpa [Memory.peek, hne] using h a

/-- Canonical memories that read alike are equal data. -/
theorem Memory.ext_of_wf (m m' : Memory) (hw : m.wf = true) (hw' : m'.wf = true) (h : ∀ a, m.peek a = m'.peek a) :
    m = m' :=
  Memory.ext_of_wfFrom m m' 0 hw hw' h

end Sys2Proof.Machine
end

