-- ==== Sys2Proof/Laws/Operands.lean ====
section
/-! SUPPORT. What the operand decoder answers, said once for each format: it resolves exactly what R126 to R128 resolve, and
otherwise answers the first fault in the order of R137. -/

namespace Sys2Proof.Machine

/-- The fetch of operand `k` succeeds exactly inside memory (R123). -/
theorem State.fetchOperand_ok_iff (s : State) (k : Nat) : s.fetchOperand k = .ok () ↔ s.pc.toNat + k < 32768 := by
  simp [State.fetchOperand]

/-- check answers the content itself, when it is 32775 or below (R128). -/
theorem checkContent_ok_iff (c x : Word) : checkContent c = .ok x ↔ x = c ∧ x.toNat ≤ 32775 := by
  by_cases h : c.toNat < 32776
  · simp only [checkContent, Config.invalidBase, h, if_true, Except.ok.injEq]
    constructor
    · rintro rfl
      exact ⟨rfl, by omega⟩
    · rintro ⟨rfl, -⟩
      rfl
  · simp only [checkContent, Config.invalidBase, h, if_false, reduceCtorEq, false_iff, not_and]
    rintro rfl
    omega

/-- check faults on a content of 32776 or more, and reports it (R128). -/
theorem checkContent_error_iff (c : Word) (f : FaultReport) :
    checkContent c = .error f ↔ 32776 ≤ c.toNat ∧ f = ⟨.invalidRegisterValue, c⟩ := by
  by_cases h : c.toNat < 32776
  · simp only [checkContent, Config.invalidBase, h, if_true, reduceCtorEq, false_iff, not_and]
    omega
  · simp only [checkContent, Config.invalidBase, h, if_false, Except.error.injEq]
    constructor
    · rintro rfl
      exact ⟨by omega, rfl⟩
    · rintro ⟨-, rfl⟩
      rfl

/-- val answers exactly the value of R126 and R128. -/
theorem State.val_ok_iff (s : State) (o : Operand) (x : Word) : s.val o = .ok x ↔ ValueOf s o x := by
  cases o with
  | lit n =>
    simp only [State.val, ValueOf, Except.ok.injEq]
    constructor
    · rintro rfl
      simp
      omega
    · intro h
      apply BitVec.eq_of_toNat_eq
      simp
      omega
  | reg i => exact checkContent_ok_iff (s.readReg i) x
  | invalid w => simp [State.val, ValueOf]

/-- dst answers exactly the register of R127. -/
theorem dst_ok_iff (o : Operand) (d : RegIndex) : dst o = .ok d ↔ DestOf o d := by
  cases o <;> simp [dst, DestOf]

/-- The operands of a value slot. -/
theorem State.fetchVal_ok_iff (s : State) (k : Nat) (o : Operand) (x : Word) :
    s.fetchVal k o = .ok x ↔ s.pc.toNat + k < 32768 ∧ ValueOf s o x := by
  rw [← State.fetchOperand_ok_iff, ← State.val_ok_iff]
  unfold State.fetchVal
  cases h : s.fetchOperand k <;> simp [bind, Except.bind]

/-- The operand of a destination slot. -/
theorem State.fetchDst_ok_iff (s : State) (k : Nat) (o : Operand) (d : RegIndex) :
    s.fetchDst k o = .ok d ↔ s.pc.toNat + k < 32768 ∧ DestOf o d := by
  rw [← State.fetchOperand_ok_iff, ← dst_ok_iff]
  unfold State.fetchDst
  cases h : s.fetchOperand k <;> simp [bind, Except.bind]

/-- The fault of one slot is the first operand fault of that slot. -/
theorem State.slotFault_some (s : State) (k : Nat) (slot : SlotKind × Operand) (rest : List (SlotKind × Operand))
    (f : FaultReport) (h : s.slotFault k slot = some f) : FirstOperandFault s k (slot :: rest) f := by
  obtain ⟨kind, o⟩ := slot
  by_cases hk : s.pc.toNat + k < 32768
  · have hf : s.fetchOperand k = .ok () := (State.fetchOperand_ok_iff s k).mpr hk
    cases kind with
    | value =>
      cases o with
      | lit n => simp [State.slotFault, State.fetchVal, hf, bind, Except.bind, State.val] at h
      | reg i =>
        simp only [State.slotFault, State.fetchVal, hf, bind, Except.bind, State.val, State.readReg] at h
        cases hc : checkContent s.regs[i] with
        | ok x => simp only [hc, reduceCtorEq] at h
        | error e =>
          simp only [hc, Option.some.injEq] at h
          subst h
          obtain ⟨hge, rfl⟩ := (checkContent_error_iff _ _).mp hc
          exact .content k i rest hk hge
      | invalid w =>
        simp only [State.slotFault, State.fetchVal, hf, bind, Except.bind, State.val, Option.some.injEq] at h
        subst h
        exact .operand k w rest hk
    | destination =>
      cases o with
      | reg i => simp [State.slotFault, State.fetchDst, hf, bind, Except.bind, dst] at h
      | lit n =>
        simp only [State.slotFault, State.fetchDst, hf, bind, Except.bind, dst, Option.some.injEq] at h
        subst h
        exact .destination k (.lit n) rest hk (by simp [DestOf])
      | invalid w =>
        simp only [State.slotFault, State.fetchDst, hf, bind, Except.bind, dst, Option.some.injEq] at h
        subst h
        exact .destination k (.invalid w) rest hk (by simp [DestOf])
  · have hf : s.fetchOperand k = .error ⟨.fetchOutOfBounds, BitVec.ofNat 16 (s.pc.toNat + k)⟩ := by
      simp [State.fetchOperand]
      omega
    have : f = ⟨.fetchOutOfBounds, BitVec.ofNat 16 (s.pc.toNat + k)⟩ := by
      cases kind <;>
        simp_all [State.slotFault, State.fetchDst, State.fetchVal, bind, Except.bind]
    subst this
    exact .fetch k _ rest (by omega)

/-- A value slot that is fetched and resolved. -/
theorem State.fetchVal_error (s : State) (k : Nat) (o : Operand) (rest : List (SlotKind × Operand)) (f : FaultReport)
    (h : s.fetchVal k o = .error f) : FirstOperandFault s k ((.value, o) :: rest) f :=
  State.slotFault_some s k (.value, o) rest f (by simp [State.slotFault, h])

/-- A destination slot that is fetched and resolved. -/
theorem State.fetchDst_error (s : State) (k : Nat) (o : Operand) (rest : List (SlotKind × Operand)) (f : FaultReport)
    (h : s.fetchDst k o = .error f) : FirstOperandFault s k ((.destination, o) :: rest) f :=
  State.slotFault_some s k (.destination, o) rest f (by simp [State.slotFault, h])

/-- Two values of one operand are equal. -/
theorem ValueOf.unique {s : State} {o : Operand} {x y : Word} (h : ValueOf s o x) (h' : ValueOf s o y) : x = y := by
  cases o with
  | lit n =>
    simp only [ValueOf] at h h'
    apply BitVec.eq_of_toNat_eq
    omega
  | reg i => rw [h.1, h'.1]
  | invalid w => exact h.elim

/-- A value is at most 32775 (R128). -/
theorem ValueOf.le {s : State} {o : Operand} {x : Word} (h : ValueOf s o x) : x.toNat ≤ 32775 := by
  cases o with
  | lit n =>
    have := n.isLt
    simp only [ValueOf] at h
    omega
  | reg i => exact h.2
  | invalid w => exact h.elim

/-- No operand, no operand fault. -/
theorem FirstOperandFault.not_nil (s : State) (k : Nat) (f : FaultReport) : ¬ FirstOperandFault s k [] f := by
  intro h
  cases h

/-- A slot either meets a fault or lies in memory and resolves. -/
theorem State.slotFault_none_iff (s : State) (k : Nat) (slot : SlotKind × Operand) :
    s.slotFault k slot = none ↔ s.pc.toNat + k < 32768 ∧ SlotResolves s slot := by
  obtain ⟨kind, o⟩ := slot
  cases kind with
  | value =>
    simp only [State.slotFault, SlotResolves]
    cases h : s.fetchVal k o with
    | ok x =>
      obtain ⟨hk, hx⟩ := (State.fetchVal_ok_iff s k o x).mp h
      simpa [hk] using ⟨x, hx⟩
    | error f =>
      simp only [reduceCtorEq, false_iff, not_and, not_exists]
      intro hk x hx
      rw [(State.fetchVal_ok_iff s k o x).mpr ⟨hk, hx⟩] at h
      cases h
  | destination =>
    simp only [State.slotFault, SlotResolves]
    cases h : s.fetchDst k o with
    | ok d =>
      obtain ⟨hk, hd⟩ := (State.fetchDst_ok_iff s k o d).mp h
      simpa [hk] using ⟨d, hd⟩
    | error f =>
      simp only [reduceCtorEq, false_iff, not_and, not_exists]
      intro hk d hd
      rw [(State.fetchDst_ok_iff s k o d).mpr ⟨hk, hd⟩] at h
      cases h

/-- The first operand fault of a list is the first slot's own, or a later one's when the first slot resolves. -/
theorem FirstOperandFault.cons_cases {s : State} {k : Nat} {slot : SlotKind × Operand}
    {rest : List (SlotKind × Operand)} {f : FaultReport} (h : FirstOperandFault s k (slot :: rest) f) :
    s.slotFault k slot = some f ∨ (s.slotFault k slot = none ∧ FirstOperandFault s (k + 1) rest f) := by
  cases h with
  | fetch k slot rest h =>
    have hf : s.fetchOperand k = .error ⟨.fetchOutOfBounds, BitVec.ofNat 16 (s.pc.toNat + k)⟩ := by
      simp [State.fetchOperand]
      omega
    obtain ⟨kind, o⟩ := slot
    left
    cases kind <;> simp [State.slotFault, State.fetchVal, State.fetchDst, hf, bind, Except.bind]
  | destination k o rest h ho =>
    left
    simp only [State.slotFault, State.fetchDst, (State.fetchOperand_ok_iff s k).mpr h, bind, Except.bind]
    cases o <;> simp_all [dst, DestOf, Operand.word]
  | operand k w rest h =>
    left
    simp only [State.slotFault, State.fetchVal, (State.fetchOperand_ok_iff s k).mpr h, bind, Except.bind, State.val]
  | content k i rest h hc =>
    left
    simp only [State.slotFault, State.fetchVal, (State.fetchOperand_ok_iff s k).mpr h, bind, Except.bind, State.val,
      State.readReg]
    rw [(checkContent_error_iff _ _).mpr ⟨hc, rfl⟩]
  | later k slot rest f h hr hf => exact .inr ⟨(State.slotFault_none_iff s k slot).mpr ⟨h, hr⟩, hf⟩

/-! ### The formats -/

/-- Format FV: resolved, or the first operand fault. -/
theorem State.resolveV_cases (s : State) (a : Operand) :
    (∃ x, s.resolveV a = .ok x ∧ WordsInMemory s 2 ∧ ValueOf s a x) ∨
      ∃ f, s.resolveV a = .error f ∧ FirstOperandFault s 1 [(.value, a)] f := by
  unfold State.resolveV
  cases h : s.fetchVal 1 a with
  | ok x =>
    obtain ⟨hm, hx⟩ := (State.fetchVal_ok_iff s 1 a x).mp h
    exact .inl ⟨x, rfl, by simp [WordsInMemory]; omega, hx⟩
  | error f => exact .inr ⟨f, rfl, State.fetchVal_error s 1 a [] f h⟩

/-- Format FD: resolved, or the first operand fault. -/
theorem State.resolveD_cases (s : State) (a : Operand) :
    (∃ d, s.resolveD a = .ok d ∧ WordsInMemory s 2 ∧ DestOf a d) ∨
      ∃ f, s.resolveD a = .error f ∧ FirstOperandFault s 1 [(.destination, a)] f := by
  unfold State.resolveD
  cases h : s.fetchDst 1 a with
  | ok d =>
    obtain ⟨hm, hd⟩ := (State.fetchDst_ok_iff s 1 a d).mp h
    exact .inl ⟨d, rfl, by simp [WordsInMemory]; omega, hd⟩
  | error f => exact .inr ⟨f, rfl, State.fetchDst_error s 1 a [] f h⟩

/-- Format FVV: resolved, or the first operand fault. -/
theorem State.resolveVV_cases (s : State) (a b : Operand) :
    (∃ x y, s.resolveVV a b = .ok (x, y) ∧ WordsInMemory s 3 ∧ ValueOf s a x ∧ ValueOf s b y) ∨
      ∃ f, s.resolveVV a b = .error f ∧ FirstOperandFault s 1 [(.value, a), (.value, b)] f := by
  unfold State.resolveVV
  cases h : s.fetchVal 1 a with
  | ok x =>
    obtain ⟨hm, hx⟩ := (State.fetchVal_ok_iff s 1 a x).mp h
    cases h' : s.fetchVal 2 b with
    | ok y =>
      obtain ⟨hm', hy⟩ := (State.fetchVal_ok_iff s 2 b y).mp h'
      exact .inl ⟨x, y, rfl, by simp [WordsInMemory]; omega, hx, hy⟩
    | error f => exact .inr ⟨f, rfl, .later 1 _ _ f hm ⟨x, hx⟩ (State.fetchVal_error s 2 b [] f h')⟩
  | error f => exact .inr ⟨f, rfl, State.fetchVal_error s 1 a _ f h⟩

/-- Format FDV: resolved, or the first operand fault. -/
theorem State.resolveDV_cases (s : State) (a b : Operand) :
    (∃ d x, s.resolveDV a b = .ok (d, x) ∧ WordsInMemory s 3 ∧ DestOf a d ∧ ValueOf s b x) ∨
      ∃ f, s.resolveDV a b = .error f ∧ FirstOperandFault s 1 [(.destination, a), (.value, b)] f := by
  unfold State.resolveDV
  cases h : s.fetchDst 1 a with
  | ok d =>
    obtain ⟨hm, hd⟩ := (State.fetchDst_ok_iff s 1 a d).mp h
    cases h' : s.fetchVal 2 b with
    | ok x =>
      obtain ⟨hm', hx⟩ := (State.fetchVal_ok_iff s 2 b x).mp h'
      exact .inl ⟨d, x, rfl, by simp [WordsInMemory]; omega, hd, hx⟩
    | error f => exact .inr ⟨f, rfl, .later 1 _ _ f hm ⟨d, hd⟩ (State.fetchVal_error s 2 b [] f h')⟩
  | error f => exact .inr ⟨f, rfl, State.fetchDst_error s 1 a _ f h⟩

/-- Format FDVV: resolved, or the first operand fault. -/
theorem State.resolveDVV_cases (s : State) (a b c : Operand) :
    (∃ d x y, s.resolveDVV a b c = .ok (d, x, y) ∧ WordsInMemory s 4 ∧ DestOf a d ∧ ValueOf s b x ∧ ValueOf s c y) ∨
      ∃ f, s.resolveDVV a b c = .error f ∧
        FirstOperandFault s 1 [(.destination, a), (.value, b), (.value, c)] f := by
  unfold State.resolveDVV
  cases h : s.fetchDst 1 a with
  | ok d =>
    obtain ⟨hm, hd⟩ := (State.fetchDst_ok_iff s 1 a d).mp h
    cases h' : s.fetchVal 2 b with
    | ok x =>
      obtain ⟨hm', hx⟩ := (State.fetchVal_ok_iff s 2 b x).mp h'
      cases h'' : s.fetchVal 3 c with
      | ok y =>
        obtain ⟨hm'', hy⟩ := (State.fetchVal_ok_iff s 3 c y).mp h''
        exact .inl ⟨d, x, y, rfl, by simp [WordsInMemory]; omega, hd, hx, hy⟩
      | error f =>
        exact .inr ⟨f, rfl,
          .later 1 _ _ f hm ⟨d, hd⟩ (.later 2 _ _ f hm' ⟨x, hx⟩ (State.fetchVal_error s 3 c [] f h''))⟩
    | error f => exact .inr ⟨f, rfl, .later 1 _ _ f hm ⟨d, hd⟩ (State.fetchVal_error s 2 b _ f h')⟩
  | error f => exact .inr ⟨f, rfl, State.fetchDst_error s 1 a _ f h⟩

/-! ### Going on with what was resolved -/

@[simp] theorem State.proceed_ok {α : Type} (s : State) (x : α) (k : α → Outcome) : s.proceed (.ok x) k = k x := rfl

@[simp] theorem State.proceed_error {α : Type} (s : State) (f : FaultReport) (k : α → Outcome) :
    s.proceed (.error f) k = .next (s.raise f) := rfl

end Sys2Proof.Machine
end

