-- ==== Sys2Proof/Laws/State.lean ====
section
/-! SUPPORT. One lemma per field per update of the state, true by rfl, so that no later proof unfolds a record update. -/

namespace Sys2Proof.Machine

/-! ### `writeReg`: A register write changes the register file only. -/

@[simp] theorem State.writeReg_mem (s : State) (i : RegIndex) (v : Word) : (s.writeReg i v).mem = s.mem := rfl
@[simp] theorem State.writeReg_regs (s : State) (i : RegIndex) (v : Word) : (s.writeReg i v).regs = s.regs.set i v := rfl
@[simp] theorem State.writeReg_pc (s : State) (i : RegIndex) (v : Word) : (s.writeReg i v).pc = s.pc := rfl
@[simp] theorem State.writeReg_stack (s : State) (i : RegIndex) (v : Word) : (s.writeReg i v).stack = s.stack := rfl
@[simp] theorem State.writeReg_status (s : State) (i : RegIndex) (v : Word) : (s.writeReg i v).status = s.status := rfl
@[simp] theorem State.writeReg_faultCause (s : State) (i : RegIndex) (v : Word) : (s.writeReg i v).faultCause = s.faultCause := rfl
@[simp] theorem State.writeReg_faultPc (s : State) (i : RegIndex) (v : Word) : (s.writeReg i v).faultPc = s.faultPc := rfl
@[simp] theorem State.writeReg_faultInfo (s : State) (i : RegIndex) (v : Word) : (s.writeReg i v).faultInfo = s.faultInfo := rfl
@[simp] theorem State.writeReg_hostOutput (s : State) (i : RegIndex) (v : Word) : (s.writeReg i v).hostOutput = s.hostOutput := rfl
@[simp] theorem State.writeReg_hostInput (s : State) (i : RegIndex) (v : Word) : (s.writeReg i v).hostInput = s.hostInput := rfl
@[simp] theorem State.writeReg_hostInputEnded (s : State) (i : RegIndex) (v : Word) : (s.writeReg i v).hostInputEnded = s.hostInputEnded := rfl
@[simp] theorem State.writeReg_hostOutputReady (s : State) (i : RegIndex) (v : Word) : (s.writeReg i v).hostOutputReady = s.hostOutputReady := rfl
@[simp] theorem State.writeReg_stepPending (s : State) (i : RegIndex) (v : Word) : (s.writeReg i v).stepPending = s.stepPending := rfl
@[simp] theorem State.writeReg_cfg (s : State) (i : RegIndex) (v : Word) : (s.writeReg i v).cfg = s.cfg := rfl

/-! ### `advance`: Advancing changes pc only. -/

@[simp] theorem State.advance_mem (s : State) (n : Nat) : (s.advance n).mem = s.mem := rfl
@[simp] theorem State.advance_regs (s : State) (n : Nat) : (s.advance n).regs = s.regs := rfl
@[simp] theorem State.advance_pc (s : State) (n : Nat) : (s.advance n).pc = s.pc + BitVec.ofNat 16 n := rfl
@[simp] theorem State.advance_stack (s : State) (n : Nat) : (s.advance n).stack = s.stack := rfl
@[simp] theorem State.advance_status (s : State) (n : Nat) : (s.advance n).status = s.status := rfl
@[simp] theorem State.advance_faultCause (s : State) (n : Nat) : (s.advance n).faultCause = s.faultCause := rfl
@[simp] theorem State.advance_faultPc (s : State) (n : Nat) : (s.advance n).faultPc = s.faultPc := rfl
@[simp] theorem State.advance_faultInfo (s : State) (n : Nat) : (s.advance n).faultInfo = s.faultInfo := rfl
@[simp] theorem State.advance_hostOutput (s : State) (n : Nat) : (s.advance n).hostOutput = s.hostOutput := rfl
@[simp] theorem State.advance_hostInput (s : State) (n : Nat) : (s.advance n).hostInput = s.hostInput := rfl
@[simp] theorem State.advance_hostInputEnded (s : State) (n : Nat) : (s.advance n).hostInputEnded = s.hostInputEnded := rfl
@[simp] theorem State.advance_hostOutputReady (s : State) (n : Nat) : (s.advance n).hostOutputReady = s.hostOutputReady := rfl
@[simp] theorem State.advance_stepPending (s : State) (n : Nat) : (s.advance n).stepPending = s.stepPending := rfl
@[simp] theorem State.advance_cfg (s : State) (n : Nat) : (s.advance n).cfg = s.cfg := rfl

/-! ### `jump`: A jump changes pc only. -/

@[simp] theorem State.jump_mem (s : State) (t : Word) : (s.jump t).mem = s.mem := rfl
@[simp] theorem State.jump_regs (s : State) (t : Word) : (s.jump t).regs = s.regs := rfl
@[simp] theorem State.jump_pc (s : State) (t : Word) : (s.jump t).pc = t := rfl
@[simp] theorem State.jump_stack (s : State) (t : Word) : (s.jump t).stack = s.stack := rfl
@[simp] theorem State.jump_status (s : State) (t : Word) : (s.jump t).status = s.status := rfl
@[simp] theorem State.jump_faultCause (s : State) (t : Word) : (s.jump t).faultCause = s.faultCause := rfl
@[simp] theorem State.jump_faultPc (s : State) (t : Word) : (s.jump t).faultPc = s.faultPc := rfl
@[simp] theorem State.jump_faultInfo (s : State) (t : Word) : (s.jump t).faultInfo = s.faultInfo := rfl
@[simp] theorem State.jump_hostOutput (s : State) (t : Word) : (s.jump t).hostOutput = s.hostOutput := rfl
@[simp] theorem State.jump_hostInput (s : State) (t : Word) : (s.jump t).hostInput = s.hostInput := rfl
@[simp] theorem State.jump_hostInputEnded (s : State) (t : Word) : (s.jump t).hostInputEnded = s.hostInputEnded := rfl
@[simp] theorem State.jump_hostOutputReady (s : State) (t : Word) : (s.jump t).hostOutputReady = s.hostOutputReady := rfl
@[simp] theorem State.jump_stepPending (s : State) (t : Word) : (s.jump t).stepPending = s.stepPending := rfl
@[simp] theorem State.jump_cfg (s : State) (t : Word) : (s.jump t).cfg = s.cfg := rfl

/-! ### `push`: A push changes the stack only. -/

@[simp] theorem State.push_mem (s : State) (v : Word) : (s.push v).mem = s.mem := rfl
@[simp] theorem State.push_regs (s : State) (v : Word) : (s.push v).regs = s.regs := rfl
@[simp] theorem State.push_pc (s : State) (v : Word) : (s.push v).pc = s.pc := rfl
@[simp] theorem State.push_stack (s : State) (v : Word) : (s.push v).stack = s.stack ++ [v] := rfl
@[simp] theorem State.push_status (s : State) (v : Word) : (s.push v).status = s.status := rfl
@[simp] theorem State.push_faultCause (s : State) (v : Word) : (s.push v).faultCause = s.faultCause := rfl
@[simp] theorem State.push_faultPc (s : State) (v : Word) : (s.push v).faultPc = s.faultPc := rfl
@[simp] theorem State.push_faultInfo (s : State) (v : Word) : (s.push v).faultInfo = s.faultInfo := rfl
@[simp] theorem State.push_hostOutput (s : State) (v : Word) : (s.push v).hostOutput = s.hostOutput := rfl
@[simp] theorem State.push_hostInput (s : State) (v : Word) : (s.push v).hostInput = s.hostInput := rfl
@[simp] theorem State.push_hostInputEnded (s : State) (v : Word) : (s.push v).hostInputEnded = s.hostInputEnded := rfl
@[simp] theorem State.push_hostOutputReady (s : State) (v : Word) : (s.push v).hostOutputReady = s.hostOutputReady := rfl
@[simp] theorem State.push_stepPending (s : State) (v : Word) : (s.push v).stepPending = s.stepPending := rfl
@[simp] theorem State.push_cfg (s : State) (v : Word) : (s.push v).cfg = s.cfg := rfl

/-! ### `raise`: Taking a fault writes the four status registers only (R245, R246). -/

@[simp] theorem State.raise_mem (s : State) (f : FaultReport) : (s.raise f).mem = s.mem := rfl
@[simp] theorem State.raise_regs (s : State) (f : FaultReport) : (s.raise f).regs = s.regs := rfl
@[simp] theorem State.raise_pc (s : State) (f : FaultReport) : (s.raise f).pc = s.pc := rfl
@[simp] theorem State.raise_stack (s : State) (f : FaultReport) : (s.raise f).stack = s.stack := rfl
@[simp] theorem State.raise_status (s : State) (f : FaultReport) : (s.raise f).status = .faulted := rfl
@[simp] theorem State.raise_faultCause (s : State) (f : FaultReport) : (s.raise f).faultCause = f.cause := rfl
@[simp] theorem State.raise_faultPc (s : State) (f : FaultReport) : (s.raise f).faultPc = s.pc := rfl
@[simp] theorem State.raise_faultInfo (s : State) (f : FaultReport) : (s.raise f).faultInfo = f.info := rfl
@[simp] theorem State.raise_hostOutput (s : State) (f : FaultReport) : (s.raise f).hostOutput = s.hostOutput := rfl
@[simp] theorem State.raise_hostInput (s : State) (f : FaultReport) : (s.raise f).hostInput = s.hostInput := rfl
@[simp] theorem State.raise_hostInputEnded (s : State) (f : FaultReport) : (s.raise f).hostInputEnded = s.hostInputEnded := rfl
@[simp] theorem State.raise_hostOutputReady (s : State) (f : FaultReport) : (s.raise f).hostOutputReady = s.hostOutputReady := rfl
@[simp] theorem State.raise_stepPending (s : State) (f : FaultReport) : (s.raise f).stepPending = s.stepPending := rfl
@[simp] theorem State.raise_cfg (s : State) (f : FaultReport) : (s.raise f).cfg = s.cfg := rfl

/-! ### `stop`: A clean termination writes STATUS only (R244). -/

@[simp] theorem State.stop_mem (s : State) (why : Status) : (s.stop why).mem = s.mem := rfl
@[simp] theorem State.stop_regs (s : State) (why : Status) : (s.stop why).regs = s.regs := rfl
@[simp] theorem State.stop_pc (s : State) (why : Status) : (s.stop why).pc = s.pc := rfl
@[simp] theorem State.stop_stack (s : State) (why : Status) : (s.stop why).stack = s.stack := rfl
@[simp] theorem State.stop_status (s : State) (why : Status) : (s.stop why).status = why := rfl
@[simp] theorem State.stop_faultCause (s : State) (why : Status) : (s.stop why).faultCause = s.faultCause := rfl
@[simp] theorem State.stop_faultPc (s : State) (why : Status) : (s.stop why).faultPc = s.faultPc := rfl
@[simp] theorem State.stop_faultInfo (s : State) (why : Status) : (s.stop why).faultInfo = s.faultInfo := rfl
@[simp] theorem State.stop_hostOutput (s : State) (why : Status) : (s.stop why).hostOutput = s.hostOutput := rfl
@[simp] theorem State.stop_hostInput (s : State) (why : Status) : (s.stop why).hostInput = s.hostInput := rfl
@[simp] theorem State.stop_hostInputEnded (s : State) (why : Status) : (s.stop why).hostInputEnded = s.hostInputEnded := rfl
@[simp] theorem State.stop_hostOutputReady (s : State) (why : Status) : (s.stop why).hostOutputReady = s.hostOutputReady := rfl
@[simp] theorem State.stop_stepPending (s : State) (why : Status) : (s.stop why).stepPending = s.stepPending := rfl
@[simp] theorem State.stop_cfg (s : State) (why : Status) : (s.stop why).cfg = s.cfg := rfl

/-! ### `outByte`: Sending a byte changes the host's output record only. -/

@[simp] theorem State.outByte_mem (s : State) (b : Byte) : (s.outByte b).mem = s.mem := rfl
@[simp] theorem State.outByte_regs (s : State) (b : Byte) : (s.outByte b).regs = s.regs := rfl
@[simp] theorem State.outByte_pc (s : State) (b : Byte) : (s.outByte b).pc = s.pc := rfl
@[simp] theorem State.outByte_stack (s : State) (b : Byte) : (s.outByte b).stack = s.stack := rfl
@[simp] theorem State.outByte_status (s : State) (b : Byte) : (s.outByte b).status = s.status := rfl
@[simp] theorem State.outByte_faultCause (s : State) (b : Byte) : (s.outByte b).faultCause = s.faultCause := rfl
@[simp] theorem State.outByte_faultPc (s : State) (b : Byte) : (s.outByte b).faultPc = s.faultPc := rfl
@[simp] theorem State.outByte_faultInfo (s : State) (b : Byte) : (s.outByte b).faultInfo = s.faultInfo := rfl
@[simp] theorem State.outByte_hostOutput (s : State) (b : Byte) : (s.outByte b).hostOutput = s.hostOutput ++ [b] := rfl
@[simp] theorem State.outByte_hostInput (s : State) (b : Byte) : (s.outByte b).hostInput = s.hostInput := rfl
@[simp] theorem State.outByte_hostInputEnded (s : State) (b : Byte) : (s.outByte b).hostInputEnded = s.hostInputEnded := rfl
@[simp] theorem State.outByte_hostOutputReady (s : State) (b : Byte) : (s.outByte b).hostOutputReady = s.hostOutputReady := rfl
@[simp] theorem State.outByte_stepPending (s : State) (b : Byte) : (s.outByte b).stepPending = s.stepPending := rfl
@[simp] theorem State.outByte_cfg (s : State) (b : Byte) : (s.outByte b).cfg = s.cfg := rfl

/-! ### Registers -/

/-- A register holds what was last written to it. -/
theorem State.readReg_writeReg_same (s : State) (i : RegIndex) (v : Word) : (s.writeReg i v).readReg i = v := by
  simp [State.readReg]

/-- A write leaves every other register alone. -/
theorem State.readReg_writeReg_other (s : State) (i j : RegIndex) (v : Word) (h : j ≠ i) :
    (s.writeReg i v).readReg j = s.readReg j := by
  have h' : i.val ≠ j.val := fun e => h (Fin.ext e.symm)
  simp [State.readReg, Vector.getElem_set_ne _ _ h']

/-! ### The stack -/

/-- Pop() fails exactly on the empty stack (R40). -/
theorem State.pop?_eq_none_iff (s : State) : s.pop? = none ↔ s.stack = [] := by
  unfold State.pop?
  split
  · next h => simpa using h
  · next w h =>
    obtain ⟨ys, hys⟩ := List.getLast?_eq_some_iff.mp h
    simp [hys]

/-- Pop() takes the word at the top, the end of the list, and changes nothing but the stack. -/
theorem State.pop?_eq_some_iff (s s' : State) (v : Word) :
    s.pop? = some (v, s') ↔ ∃ rest, s.stack = rest ++ [v] ∧ s' = { s with stack := rest } := by
  unfold State.pop?
  split
  · next h =>
    have hs : s.stack = [] := by simpa using h
    simp [hs]
  · next w h =>
    obtain ⟨ys, hys⟩ := List.getLast?_eq_some_iff.mp h
    simp only [hys, List.dropLast_concat, Option.some.injEq, Prod.mk.injEq]
    constructor
    · rintro ⟨rfl, rfl⟩; exact ⟨ys, rfl, rfl⟩
    · rintro ⟨rest, he, rfl⟩
      obtain ⟨rfl, hw⟩ := List.append_inj' he rfl
      exact ⟨by simpa using hw, rfl⟩

/-! ### The input port -/

/-- IN's port waits exactly when nothing is offered and end-of-input is not signalled (R232). -/
theorem State.inByte_wait_iff (s : State) : s.inByte = .wait ↔ s.hostInput = [] ∧ s.hostInputEnded = false := by
  unfold State.inByte
  split <;> simp_all

/-- The port answers end-of-input exactly when nothing is offered and the host has signalled it (R268). -/
theorem State.inByte_eof_iff (s : State) : s.inByte = .eof ↔ s.hostInput = [] ∧ s.hostInputEnded = true := by
  unfold State.inByte
  split <;> simp_all

/-- A byte comes from the front of the input record, and only that record changes. -/
theorem State.inByte_byte_iff (s s' : State) (b : Byte) :
    s.inByte = .byte b s' ↔ ∃ rest, s.hostInput = b :: rest ∧ s' = { s with hostInput := rest } := by
  unfold State.inByte
  split
  · next c rest h =>
    simp only [InputAnswer.byte.injEq, h, List.cons.injEq]
    constructor
    · rintro ⟨rfl, rfl⟩; exact ⟨rest, ⟨rfl, rfl⟩, rfl⟩
    · rintro ⟨rest', ⟨rfl, rfl⟩, rfl⟩; exact ⟨rfl, rfl⟩
  · next h => split <;> simp [h]

end Sys2Proof.Machine
end

