-- ==== Sys2Proof/Laws/Exec.lean ====
section
/-! SUPPORT. What executing an instruction can do, said once (`exec_cases`): it takes the fault of an operand, it takes the
fault of its own execute phase, it waits on the host, or it completes with the writes of R132. Invariants and frames are
derived from this and do not unfold the meanings again. -/

namespace Sys2Proof.Machine

/-- The state `t` in which an instruction has completed from `s`, by its rule. -/
def Completes (s t : State) : Instr → Prop
  | .halt => t = s.stop .halted
  | .noop => t = s.advance 1
  | .set a b => WordsInMemory s 3 ∧ ∃ d x, DestOf a d ∧ ValueOf s b x ∧ t = (s.writeReg d x).advance 3
  | .push a => WordsInMemory s 2 ∧ ∃ x, ValueOf s a x ∧ s.stackFull = false ∧ t = (s.push x).advance 2
  | .pop a => WordsInMemory s 2 ∧ ∃ d rest v, DestOf a d ∧ s.stack = rest ++ [v] ∧
      t = (State.writeReg { s with stack := rest } d v).advance 2
  | .eq a b c => WordsInMemory s 4 ∧ ∃ d x y, DestOf a d ∧ ValueOf s b x ∧ ValueOf s c y ∧
      t = (s.writeReg d (truthWord (x == y))).advance 4
  | .gt a b c => WordsInMemory s 4 ∧ ∃ d x y, DestOf a d ∧ ValueOf s b x ∧ ValueOf s c y ∧
      t = (s.writeReg d (truthWord (decide (y.toNat < x.toNat)))).advance 4
  | .jmp a => WordsInMemory s 2 ∧ ∃ x, ValueOf s a x ∧ t = s.jump x
  | .jt a b => WordsInMemory s 3 ∧ ∃ x y, ValueOf s a x ∧ ValueOf s b y ∧
      t = if isNonzero x then s.jump y else s.advance 3
  | .jf a b => WordsInMemory s 3 ∧ ∃ x y, ValueOf s a x ∧ ValueOf s b y ∧
      t = if isNonzero x then s.advance 3 else s.jump y
  | .add a b c => WordsInMemory s 4 ∧ ∃ d x y, DestOf a d ∧ ValueOf s b x ∧ ValueOf s c y ∧
      t = (s.writeReg d (aluAdd x y)).advance 4
  | .mult a b c => WordsInMemory s 4 ∧ ∃ d x y, DestOf a d ∧ ValueOf s b x ∧ ValueOf s c y ∧
      t = (s.writeReg d (aluMult x y)).advance 4
  | .mod a b c => WordsInMemory s 4 ∧ ∃ d x y, DestOf a d ∧ ValueOf s b x ∧ ValueOf s c y ∧ y ≠ 0 ∧
      t = (s.writeReg d (aluMod x y)).advance 4
  | .and a b c => WordsInMemory s 4 ∧ ∃ d x y, DestOf a d ∧ ValueOf s b x ∧ ValueOf s c y ∧
      t = (s.writeReg d (x &&& y)).advance 4
  | .or a b c => WordsInMemory s 4 ∧ ∃ d x y, DestOf a d ∧ ValueOf s b x ∧ ValueOf s c y ∧
      t = (s.writeReg d (x ||| y)).advance 4
  | .not a b => WordsInMemory s 3 ∧ ∃ d x, DestOf a d ∧ ValueOf s b x ∧ t = (s.writeReg d (aluNot x)).advance 3
  | .rmem a b => WordsInMemory s 3 ∧ ∃ d addr, DestOf a d ∧ ValueOf s b addr ∧ addr.toNat < 32768 ∧
      t = (s.writeReg d (s.mem.peek addr.toNat)).advance 3
  | .wmem a b => WordsInMemory s 3 ∧ ∃ addr x, ValueOf s a addr ∧ ValueOf s b x ∧ addr.toNat < 32768 ∧
      t = State.advance { s with mem := s.mem.poke addr.toNat x } 3
  | .call a => WordsInMemory s 2 ∧ ∃ x, ValueOf s a x ∧ s.stackFull = false ∧ t = (s.push (s.pc + 2)).jump x
  | .ret => (s.stack = [] ∧ t = s.stop .retHalted) ∨
      ∃ rest v, s.stack = rest ++ [v] ∧ t = State.jump { s with stack := rest } v
  | .out a => WordsInMemory s 2 ∧ ∃ x, ValueOf s a x ∧ s.hostOutputReady = true ∧
      t = (s.outByte (x.setWidth 8)).advance 2
  | .inp a => WordsInMemory s 2 ∧ ∃ d b rest, DestOf a d ∧ s.hostInput = b :: rest ∧
      t = (State.writeReg { s with hostInput := rest } d (b.setWidth 16)).advance 2

/-- The fault of an instruction's own execute phase, after its operands have resolved (R131). -/
def ExecuteFault (s : State) (f : FaultReport) : Instr → Prop
  | .push _ | .call _ => s.stackFull = true ∧ f = ⟨.stackOverflow, 0⟩
  | .pop _ => s.stack = [] ∧ f = ⟨.stackUnderflow, 0⟩
  | .mod _ _ c => ValueOf s c 0 ∧ f = ⟨.divideByZero, 0⟩
  | .rmem _ b => ∃ addr, ValueOf s b addr ∧ 32768 ≤ addr.toNat ∧ f = ⟨.dataOutOfBounds, addr⟩
  | .wmem a _ => ∃ addr, ValueOf s a addr ∧ 32768 ≤ addr.toNat ∧ f = ⟨.dataOutOfBounds, addr⟩
  | .inp _ => s.hostInput = [] ∧ s.hostInputEnded = true ∧ f = ⟨.inputEof, 0⟩
  | _ => False

/-- The wait of an instruction on the host (R232). -/
def Waits (s : State) : Instr → Prop
  | .out _ => s.hostOutputReady = false
  | .inp _ => s.hostInput = [] ∧ s.hostInputEnded = false
  | _ => False

/-- Everything executing an instruction can do. -/
theorem exec_cases (i : Instr) (s : State) :
    (∃ f, FirstOperandFault s 1 i.slots f ∧ exec i s = .next (s.raise f)) ∨
    (∃ f, ExecuteFault s f i ∧ exec i s = .next (s.raise f)) ∨
    (Waits s i ∧ exec i s = .next s) ∨
    ∃ t, Completes s t i ∧ exec i s = .next t := by
  cases i with
  | halt => exact .inr (.inr (.inr ⟨_, rfl, rfl⟩))
  | noop => exact .inr (.inr (.inr ⟨_, rfl, rfl⟩))
  | set a b =>
    simp only [exec, execSet]
    obtain ⟨d, x, h, hm, hd, hx⟩ | ⟨f, h, hf⟩ := State.resolveDV_cases s a b <;> rw [h]
    · exact .inr (.inr (.inr ⟨_, ⟨hm, d, x, hd, hx, rfl⟩, rfl⟩))
    · exact .inl ⟨f, hf, rfl⟩
  | not a b =>
    simp only [exec, execNot]
    obtain ⟨d, x, h, hm, hd, hx⟩ | ⟨f, h, hf⟩ := State.resolveDV_cases s a b <;> rw [h]
    · exact .inr (.inr (.inr ⟨_, ⟨hm, d, x, hd, hx, rfl⟩, rfl⟩))
    · exact .inl ⟨f, hf, rfl⟩
  | rmem a b =>
    simp only [exec, execRmem]
    obtain ⟨d, x, h, hm, hd, hx⟩ | ⟨f, h, hf⟩ := State.resolveDV_cases s a b <;> rw [h]
    · by_cases hr : x.toNat < 32768
      · exact .inr (.inr (.inr ⟨_, ⟨hm, d, x, hd, hx, hr, rfl⟩, by simp [Memory.read, hr]⟩))
      · exact .inr (.inl ⟨_, ⟨x, hx, by omega, rfl⟩, by simp [Memory.read, hr]⟩)
    · exact .inl ⟨f, hf, rfl⟩
  | wmem a b =>
    simp only [exec, execWmem]
    obtain ⟨x, y, h, hm, hx, hy⟩ | ⟨f, h, hf⟩ := State.resolveVV_cases s a b <;> rw [h]
    · by_cases hr : x.toNat < 32768
      · exact .inr (.inr (.inr ⟨_, ⟨hm, x, y, hx, hy, hr, rfl⟩, by simp [Memory.write, hr]⟩))
      · exact .inr (.inl ⟨_, ⟨x, hx, by omega, rfl⟩, by simp [Memory.write, hr]⟩)
    · exact .inl ⟨f, hf, rfl⟩
  | jt a b =>
    simp only [exec, execJt]
    obtain ⟨x, y, h, hm, hx, hy⟩ | ⟨f, h, hf⟩ := State.resolveVV_cases s a b <;> rw [h]
    · exact .inr (.inr (.inr ⟨_, ⟨hm, x, y, hx, hy, rfl⟩, by simp only [State.proceed_ok]; split <;> rfl⟩))
    · exact .inl ⟨f, hf, rfl⟩
  | jf a b =>
    simp only [exec, execJf]
    obtain ⟨x, y, h, hm, hx, hy⟩ | ⟨f, h, hf⟩ := State.resolveVV_cases s a b <;> rw [h]
    · exact .inr (.inr (.inr ⟨_, ⟨hm, x, y, hx, hy, rfl⟩, by simp only [State.proceed_ok]; split <;> rfl⟩))
    · exact .inl ⟨f, hf, rfl⟩
  | jmp a =>
    simp only [exec, execJmp]
    obtain ⟨x, h, hm, hx⟩ | ⟨f, h, hf⟩ := State.resolveV_cases s a <;> rw [h]
    · exact .inr (.inr (.inr ⟨_, ⟨hm, x, hx, rfl⟩, rfl⟩))
    · exact .inl ⟨f, hf, rfl⟩
  | push a =>
    simp only [exec, execPush]
    obtain ⟨x, h, hm, hx⟩ | ⟨f, h, hf⟩ := State.resolveV_cases s a <;> rw [h]
    · cases hs : s.stackFull
      · exact .inr (.inr (.inr ⟨_, ⟨hm, x, hx, hs, rfl⟩, by simp⟩))
      · exact .inr (.inl ⟨_, ⟨hs, rfl⟩, by simp⟩)
    · exact .inl ⟨f, hf, rfl⟩
  | call a =>
    simp only [exec, execCall]
    obtain ⟨x, h, hm, hx⟩ | ⟨f, h, hf⟩ := State.resolveV_cases s a <;> rw [h]
    · cases hs : s.stackFull
      · exact .inr (.inr (.inr ⟨_, ⟨hm, x, hx, hs, rfl⟩, by simp⟩))
      · exact .inr (.inl ⟨_, ⟨hs, rfl⟩, by simp⟩)
    · exact .inl ⟨f, hf, rfl⟩
  | out a =>
    simp only [exec, execOut]
    obtain ⟨x, h, hm, hx⟩ | ⟨f, h, hf⟩ := State.resolveV_cases s a <;> rw [h]
    · cases hs : s.hostOutputReady
      · exact .inr (.inr (.inl ⟨hs, by simp [State.outputWaits, hs]⟩))
      · exact .inr (.inr (.inr ⟨_, ⟨hm, x, hx, hs, rfl⟩, by simp [State.outputWaits, hs]⟩))
    · exact .inl ⟨f, hf, rfl⟩
  | inp a =>
    simp only [exec, execIn]
    obtain ⟨d, h, hm, hd⟩ | ⟨f, h, hf⟩ := State.resolveD_cases s a <;> rw [h]
    · simp only [State.proceed_ok]
      cases hi : s.inByte with
      | byte b s' =>
        obtain ⟨rest, hr, rfl⟩ := (State.inByte_byte_iff s s' b).mp hi
        exact .inr (.inr (.inr ⟨_, ⟨hm, d, b, rest, hd, hr, rfl⟩, rfl⟩))
      | eof =>
        obtain ⟨he, hee⟩ := (State.inByte_eof_iff s).mp hi
        exact .inr (.inl ⟨_, ⟨he, hee, rfl⟩, rfl⟩)
      | wait => exact .inr (.inr (.inl ⟨(State.inByte_wait_iff s).mp hi, rfl⟩))
    · exact .inl ⟨f, hf, rfl⟩
  | pop a =>
    simp only [exec, execPop]
    obtain ⟨d, h, hm, hd⟩ | ⟨f, h, hf⟩ := State.resolveD_cases s a <;> rw [h]
    · simp only [State.proceed_ok]
      cases hp : s.pop? with
      | none => exact .inr (.inl ⟨_, ⟨(State.pop?_eq_none_iff s).mp hp, rfl⟩, rfl⟩)
      | some p =>
        obtain ⟨v, s'⟩ := p
        obtain ⟨rest, hr, rfl⟩ := (State.pop?_eq_some_iff s s' v).mp hp
        exact .inr (.inr (.inr ⟨_, ⟨hm, d, rest, v, hd, hr, rfl⟩, rfl⟩))
    · exact .inl ⟨f, hf, rfl⟩
  | ret =>
    simp only [exec, execRet]
    cases hp : s.pop? with
    | none => exact .inr (.inr (.inr ⟨_, .inl ⟨(State.pop?_eq_none_iff s).mp hp, rfl⟩, rfl⟩))
    | some p =>
      obtain ⟨v, s'⟩ := p
      obtain ⟨rest, hr, rfl⟩ := (State.pop?_eq_some_iff s s' v).mp hp
      exact .inr (.inr (.inr ⟨_, .inr ⟨rest, v, hr, rfl⟩, rfl⟩))
  | eq a b c =>
    simp only [exec, execEq]
    obtain ⟨d, x, y, h, hm, hd, hx, hy⟩ | ⟨f, h, hf⟩ := State.resolveDVV_cases s a b c <;> rw [h]
    · exact .inr (.inr (.inr ⟨_, ⟨hm, d, x, y, hd, hx, hy, rfl⟩, rfl⟩))
    · exact .inl ⟨f, hf, rfl⟩
  | gt a b c =>
    simp only [exec, execGt]
    obtain ⟨d, x, y, h, hm, hd, hx, hy⟩ | ⟨f, h, hf⟩ := State.resolveDVV_cases s a b c <;> rw [h]
    · exact .inr (.inr (.inr ⟨_, ⟨hm, d, x, y, hd, hx, hy, rfl⟩, rfl⟩))
    · exact .inl ⟨f, hf, rfl⟩
  | add a b c =>
    simp only [exec, execAdd]
    obtain ⟨d, x, y, h, hm, hd, hx, hy⟩ | ⟨f, h, hf⟩ := State.resolveDVV_cases s a b c <;> rw [h]
    · exact .inr (.inr (.inr ⟨_, ⟨hm, d, x, y, hd, hx, hy, rfl⟩, rfl⟩))
    · exact .inl ⟨f, hf, rfl⟩
  | mult a b c =>
    simp only [exec, execMult]
    obtain ⟨d, x, y, h, hm, hd, hx, hy⟩ | ⟨f, h, hf⟩ := State.resolveDVV_cases s a b c <;> rw [h]
    · exact .inr (.inr (.inr ⟨_, ⟨hm, d, x, y, hd, hx, hy, rfl⟩, rfl⟩))
    · exact .inl ⟨f, hf, rfl⟩
  | mod a b c =>
    simp only [exec, execMod]
    obtain ⟨d, x, y, h, hm, hd, hx, hy⟩ | ⟨f, h, hf⟩ := State.resolveDVV_cases s a b c <;> rw [h]
    · by_cases hz : y = 0
      · subst hz
        exact .inr (.inl ⟨_, ⟨hy, rfl⟩, by simp⟩)
      · exact .inr (.inr (.inr ⟨_, ⟨hm, d, x, y, hd, hx, hy, hz, rfl⟩, by simp only [State.proceed_ok, hz, if_false]⟩))
    · exact .inl ⟨f, hf, rfl⟩
  | and a b c =>
    simp only [exec, execAnd]
    obtain ⟨d, x, y, h, hm, hd, hx, hy⟩ | ⟨f, h, hf⟩ := State.resolveDVV_cases s a b c <;> rw [h]
    · exact .inr (.inr (.inr ⟨_, ⟨hm, d, x, y, hd, hx, hy, rfl⟩, rfl⟩))
    · exact .inl ⟨f, hf, rfl⟩
  | or a b c =>
    simp only [exec, execOr]
    obtain ⟨d, x, y, h, hm, hd, hx, hy⟩ | ⟨f, h, hf⟩ := State.resolveDVV_cases s a b c <;> rw [h]
    · exact .inr (.inr (.inr ⟨_, ⟨hm, d, x, y, hd, hx, hy, rfl⟩, rfl⟩))
    · exact .inl ⟨f, hf, rfl⟩

/-- The shapes of a completion, for frames and invariants: nine, over all 22 instructions. -/
theorem completes_cases {i : Instr} {s t : State} (h : Completes s t i) :
    (∃ why, (i = .halt ∧ why = .halted ∨ i = .ret ∧ s.stack = [] ∧ why = .retHalted) ∧ t = s.stop why) ∨
    (∃ p, t = s.jump p) ∨
    (∃ d v p, destinationOf i = some d ∧ t = (s.writeReg d v).jump p) ∨
    (∃ d v p rest, i.opcode = .pop ∧ destinationOf i = some d ∧ s.stack = rest ++ [v] ∧
      t = (State.writeReg { s with stack := rest } d v).jump p) ∨
    (∃ d b p rest, i.opcode = .inp ∧ destinationOf i = some d ∧ s.hostInput = b :: rest ∧
      t = (State.writeReg { s with hostInput := rest } d (b.setWidth 16)).jump p) ∨
    (∃ v p, (i.opcode = .push ∨ i.opcode = .call) ∧ s.stackFull = false ∧ v.toNat ≤ 32775 ∧ t = (s.push v).jump p) ∨
    (∃ v rest, i = .ret ∧ s.stack = rest ++ [v] ∧ t = State.jump { s with stack := rest } v) ∨
    (∃ a b addr x, i = .wmem a b ∧ ValueOf s a addr ∧ addr.toNat < 32768 ∧
      t = State.advance { s with mem := s.mem.poke addr.toNat x } 3) ∨
    ∃ b p, i.opcode = .out ∧ t = (s.outByte b).jump p := by
  cases i with
  | halt => exact .inl ⟨_, .inl ⟨rfl, rfl⟩, h⟩
  | noop => exact .inr (.inl ⟨_, h⟩)
  | jmp a =>
    obtain ⟨-, x, -, rfl⟩ := h
    exact .inr (.inl ⟨x, rfl⟩)
  | jt a b | jf a b =>
    obtain ⟨-, x, y, -, -, rfl⟩ := h
    right; left
    split <;> exact ⟨_, rfl⟩
  | set a b | not a b =>
    obtain ⟨-, d, x, hd, -, rfl⟩ := h
    cases hd
    exact .inr (.inr (.inl ⟨d, _, _, rfl, rfl⟩))
  | rmem a b =>
    obtain ⟨-, d, x, hd, -, -, rfl⟩ := h
    cases hd
    exact .inr (.inr (.inl ⟨d, _, _, rfl, rfl⟩))
  | eq a b c | gt a b c | add a b c | mult a b c | and a b c | or a b c =>
    obtain ⟨-, d, x, y, hd, -, -, rfl⟩ := h
    cases hd
    exact .inr (.inr (.inl ⟨d, _, _, rfl, rfl⟩))
  | mod a b c =>
    obtain ⟨-, d, x, y, hd, -, -, -, rfl⟩ := h
    cases hd
    exact .inr (.inr (.inl ⟨d, _, _, rfl, rfl⟩))
  | pop a =>
    obtain ⟨-, d, rest, v, hd, hs, rfl⟩ := h
    cases hd
    exact .inr (.inr (.inr (.inl ⟨d, v, _, rest, rfl, rfl, hs, rfl⟩)))
  | inp a =>
    obtain ⟨-, d, b, rest, hd, hi, rfl⟩ := h
    cases hd
    exact .inr (.inr (.inr (.inr (.inl ⟨d, b, _, rest, rfl, rfl, hi, rfl⟩))))
  | push a =>
    obtain ⟨-, x, hx, hf, rfl⟩ := h
    exact .inr (.inr (.inr (.inr (.inr (.inl ⟨x, _, .inl rfl, hf, hx.le, rfl⟩)))))
  | call a =>
    obtain ⟨hm, x, -, hf, rfl⟩ := h
    refine .inr (.inr (.inr (.inr (.inr (.inl ⟨s.pc + 2, x, .inr rfl, hf, ?_, rfl⟩)))))
    simp only [WordsInMemory] at hm
    simp
    omega
  | ret =>
    obtain ⟨hs, rfl⟩ | ⟨rest, v, hs, rfl⟩ := h
    · exact .inl ⟨_, .inr ⟨rfl, hs, rfl⟩, rfl⟩
    · exact .inr (.inr (.inr (.inr (.inr (.inr (.inl ⟨v, rest, rfl, hs, rfl⟩))))))
  | wmem a b =>
    obtain ⟨-, addr, x, ha, -, hl, rfl⟩ := h
    exact .inr (.inr (.inr (.inr (.inr (.inr (.inr (.inl ⟨a, b, addr, x, rfl, ha, hl, rfl⟩)))))))
  | out a =>
    obtain ⟨-, x, -, -, rfl⟩ := h
    exact .inr (.inr (.inr (.inr (.inr (.inr (.inr (.inr ⟨_, _, rfl, rfl⟩)))))))

end Sys2Proof.Machine
end

