-- ==== Sys2Proof/Laws/Step.lean ====
section
/-! SUPPORT. What the fetch unit answers and what a step can do, said once. -/

namespace Sys2Proof.Machine

/-- The window holds four words, so only the opcode word can make its decoding fail. -/
theorem State.decode_fetchWindow (s : State) :
    (∃ i rest, decode s.fetchWindow = .ok (i, rest)) ∨
      decode s.fetchWindow = .error (.invalidOpcode ((s.mem.read s.pc.toNat).getD 0)) ∧
        22 ≤ ((s.mem.read s.pc.toNat).getD 0).toNat := by
  simp only [State.fetchWindow, List.map_cons, List.map_nil, Nat.add_zero, decode]
  cases h : Opcode.ofWord ((s.mem.read s.pc.toNat).getD 0) with
  | none => exact .inr ⟨rfl, (Opcode.ofWord_eq_none_iff _).mp h⟩
  | some o =>
    have hn := o.kinds_length
    left
    simp only
    rw [if_neg (by simp; omega)]
    exact ⟨_, _, rfl⟩

/-- The fetch unit's two faults and its answer (R121, R122). -/
theorem State.fetchInstr_cases (s : State) :
    (32768 ≤ s.pc.toNat ∧ s.fetchInstr = .error ⟨.fetchOutOfBounds, s.pc⟩) ∨
    (∃ op, s.mem.read s.pc.toNat = some op ∧ 22 ≤ op.toNat ∧ s.fetchInstr = .error ⟨.invalidOpcode, op⟩) ∨
    ∃ i rest, s.pc.toNat < 32768 ∧ decode s.fetchWindow = .ok (i, rest) ∧ s.fetchInstr = .ok i := by
  unfold State.fetchInstr
  cases hr : s.mem.read s.pc.toNat with
  | none => exact .inl ⟨(Memory.read_eq_none_iff _ _).mp hr, rfl⟩
  | some op =>
    have hp : s.pc.toNat < 32768 := by
      by_contra hc
      rw [(Memory.read_eq_none_iff _ _).mpr (by omega)] at hr
      cases hr
    right
    obtain ⟨i, rest, hd⟩ | ⟨hd, hop⟩ := s.decode_fetchWindow
    · exact .inr ⟨i, rest, hp, hd, by simp only [hd]⟩
    · exact .inl ⟨op, rfl, by simpa [hr] using hop, by simp only [hd]⟩

/-- A core that is not RUNNING does not move (R248). -/
theorem step_stopped (s : State) (h : s.status ≠ .running) : step s = .next s := by
  unfold step
  cases hs : s.status <;> simp_all

/-- What a step of a RUNNING core does: it takes the fault of its fetch, or it executes the decoded instruction. -/
theorem step_cases (s : State) (h : s.status = .running) :
    (∃ f, s.fetchInstr = .error f ∧ step s = .next (s.raise f)) ∨
      ∃ i rest, s.fetchInstr = .ok i ∧ s.pc.toNat < 32768 ∧ decode s.fetchWindow = .ok (i, rest) ∧ step s = exec i s := by
  unfold step
  simp only [h]
  obtain ⟨_, hf⟩ | ⟨op, _, _, hf⟩ | ⟨i, rest, hp, hd, hf⟩ := s.fetchInstr_cases
  · exact .inl ⟨_, hf, by rw [hf]; rfl⟩
  · exact .inl ⟨_, hf, by rw [hf]; rfl⟩
  · exact .inr ⟨i, rest, hf, hp, hd, by rw [hf]; rfl⟩

end Sys2Proof.Machine
end

