-- ==== Sys2Proof/Laws/Arbiter.lean ====
section
/-! SUPPORT. What the parts of a step's accesses are: the operand fetches and the data access (R66). -/

namespace Sys2Proof.Machine

/-- The operand fetches are reads at consecutive addresses in memory, from operand `k` on: all of them, unless an operand
faults. -/
theorem State.operandAccesses_eq (s : State) (slots : List (SlotKind × Operand)) (k : Nat) :
    ∃ n, n ≤ slots.length ∧ (∀ j, j < n → s.pc.toNat + k + j < 32768) ∧
      s.operandAccesses k slots =
        (List.range n).map (fun j => MemAccess.read (s.pc.toNat + k + j) ((s.mem.read (s.pc.toNat + k + j)).getD 0)) ∧
      ((∀ f, ¬ FirstOperandFault s k slots f) → n = slots.length) := by
  induction slots generalizing k with
  | nil => exact ⟨0, Nat.le_refl 0, fun _ h => absurd h (Nat.not_lt_zero _), rfl, fun _ => rfl⟩
  | cons slot rest ih =>
    by_cases hk : s.pc.toNat + k < 32768
    · have hm : s.mem.read (s.pc.toNat + k) = some (s.mem.peek (s.pc.toNat + k)) := by simp [Memory.read, hk]
      cases hf : s.slotFault k slot with
      | some f =>
        refine ⟨1, by simp, fun j hj => by omega, by simp [State.operandAccesses, hm, hf], fun hn => ?_⟩
        exact absurd (State.slotFault_some s k slot rest f hf) (hn f)
      | none =>
        obtain ⟨n, hn, hb, he, hall⟩ := ih (k + 1)
        have hr := (State.slotFault_none_iff s k slot).mp hf
        refine ⟨n + 1, by simpa using hn, fun j hj => ?_, ?_, fun hno => ?_⟩
        · cases j with
          | zero => exact hk
          | succ j => have := hb j (by omega); omega
        · simp only [State.operandAccesses, hm, hf, he, List.range_succ_eq_map, List.map_cons, List.map_map]
          refine congrArg₂ _ (by simp [hm]) (List.map_congr_left fun j _ => ?_)
          simp only [Function.comp, Nat.succ_eq_add_one]
          rw [show s.pc.toNat + (k + 1) + j = s.pc.toNat + k + (j + 1) by omega]
        · have := hall fun f h => hno f (.later k slot rest f hk hr.2 h)
          simp [this]
    · refine ⟨0, by simp, fun j hj => absurd hj (Nat.not_lt_zero _), ?_, fun hn => absurd (.fetch k slot rest (by omega)) (hn _)⟩
      simp [State.operandAccesses, (Memory.read_eq_none_iff s.mem (s.pc.toNat + k)).mpr (by omega)]

/-- The fetches of an instruction that is fetched and decoded: reads from pc on at consecutive addresses, one for the opcode
and one for each operand, unless an operand faults. -/
theorem State.fetchAccesses_eq (s : State) (i : Instr) (hp : s.pc.toNat < 32768) (hf : s.fetchInstr = .ok i) :
    ∃ n, n ≤ i.slots.length ∧
      s.fetchAccesses =
        (List.range (n + 1)).map (fun k => MemAccess.read (s.pc.toNat + k) ((s.mem.read (s.pc.toNat + k)).getD 0)) ∧
      ((∀ f, ¬ FirstOperandFault s 1 i.slots f) → n = i.slots.length) := by
  obtain ⟨n, hn, -, he, hall⟩ := s.operandAccesses_eq i.slots 1
  have hm : s.mem.read s.pc.toNat = some (s.mem.peek s.pc.toNat) := by simp [Memory.read, hp]
  refine ⟨n, hn, ?_, hall⟩
  simp only [State.fetchAccesses, hm, hf, he, List.range_succ_eq_map, List.map_cons, List.map_map, Nat.add_zero,
    Option.getD_some]
  refine congrArg₂ _ rfl (List.map_congr_left fun j _ => ?_)
  simp only [Function.comp, Nat.succ_eq_add_one]
  rw [show s.pc.toNat + 1 + j = s.pc.toNat + (j + 1) by omega]

/-- The accesses of a stopped core's step. -/
theorem State.stepAccesses_stopped (s : State) (h : s.status ≠ .running) : s.stepAccesses = [] := by
  unfold State.stepAccesses
  cases hs : s.status <;> first | exact absurd hs h | rfl

/-- The accesses of a RUNNING core's step: its fetches, unless it goes on with a step in progress, then its data access. -/
theorem State.stepAccesses_running (s : State) (h : s.status = .running) :
    s.stepAccesses = (if s.midStep then [] else s.fetchAccesses) ++ s.executeAccesses := by
  unfold State.stepAccesses
  rw [h]

/-- The data access beside the outcome: none and no change of memory, when the instruction is neither RMEM nor WMEM or it
faults; RMEM's read; or WMEM's write. -/
theorem State.dataAccess_cases (i : Instr) (s t : State) (h : exec i s = .next t) :
    (s.dataAccess i = [] ∧ t.mem = s.mem ∧
      (((∀ a b, i ≠ .rmem a b) ∧ ∀ a b, i ≠ .wmem a b) ∨ ∃ f, t = s.raise f)) ∨
    (∃ a b addr, i = .rmem a b ∧ ValueOf s b addr ∧ addr.toNat < 32768 ∧ t.mem = s.mem ∧ t.status = s.status ∧
      s.dataAccess i = [.read addr.toNat (s.mem.peek addr.toNat)]) ∨
    ∃ a b addr x, i = .wmem a b ∧ ValueOf s a addr ∧ ValueOf s b x ∧ addr.toNat < 32768 ∧
      t.mem = s.mem.poke addr.toNat x ∧ t.status = s.status ∧ s.dataAccess i = [.write addr.toNat x] := by
  cases i with
  | rmem a b =>
    simp only [exec, execRmem] at h
    simp only [State.dataAccess]
    obtain ⟨d, addr, hr, -, -, hx⟩ | ⟨f, hr, -⟩ := State.resolveDV_cases s a b
    · simp only [hr, State.proceed_ok] at h ⊢
      by_cases ha : addr.toNat < 32768
      · have hm : s.mem.read addr.toNat = some (s.mem.peek addr.toNat) := by simp [Memory.read, ha]
        simp only [hm] at h
        cases h
        exact .inr (.inl ⟨a, b, addr, rfl, hx, ha, rfl, rfl, by simp [hm]⟩)
      · have hm := (Memory.read_eq_none_iff s.mem addr.toNat).mpr (by omega)
        simp only [hm] at h
        cases h
        exact .inl ⟨by simp [hm], rfl, .inr ⟨_, rfl⟩⟩
    · simp only [hr, State.proceed_error] at h
      cases h
      exact .inl ⟨by simp [hr], rfl, .inr ⟨_, rfl⟩⟩
  | wmem a b =>
    simp only [exec, execWmem] at h
    simp only [State.dataAccess]
    obtain ⟨addr, x, hr, -, hx, hy⟩ | ⟨f, hr, -⟩ := State.resolveVV_cases s a b
    · simp only [hr, State.proceed_ok] at h ⊢
      by_cases ha : addr.toNat < 32768
      · have hm : s.mem.write addr.toNat x = some (s.mem.poke addr.toNat x) := by simp [Memory.write, ha]
        simp only [hm] at h
        cases h
        exact .inr (.inr ⟨a, b, addr, x, rfl, hx, hy, ha, rfl, rfl, by simp [hm]⟩)
      · have hm := (Memory.write_eq_none_iff s.mem addr.toNat x).mpr (by omega)
        simp only [hm] at h
        cases h
        exact .inl ⟨by simp [hm], rfl, .inr ⟨_, rfl⟩⟩
    · simp only [hr, State.proceed_error] at h
      cases h
      exact .inl ⟨by simp [hr], rfl, .inr ⟨_, rfl⟩⟩
  | _ =>
    refine .inl ⟨rfl, ?_, .inl ⟨nofun, nofun⟩⟩
    obtain ⟨f, -, h'⟩ | ⟨f, -, h'⟩ | ⟨-, h'⟩ | ⟨u, hu, h'⟩ := exec_cases _ s <;> rw [h'] at h <;> cases h <;> try rfl
    all_goals
      simp only [Completes] at hu
      first
        | (subst hu; rfl)
        | (obtain ⟨-, rfl⟩ | ⟨_, _, -, rfl⟩ := hu <;> rfl)
        | (obtain ⟨-, _, -, rfl⟩ := hu; rfl)
        | (obtain ⟨-, _, -, -, rfl⟩ := hu; rfl)
        | (obtain ⟨-, _, _, -, -, rfl⟩ := hu; first | rfl | (split <;> rfl))
        | (obtain ⟨-, _, _, _, -, -, rfl⟩ := hu; rfl)
        | (obtain ⟨-, _, _, _, -, -, -, rfl⟩ := hu; rfl)
        | (obtain ⟨-, _, _, _, -, -, -, -, rfl⟩ := hu; rfl)

end Sys2Proof.Machine
end

