-- ==== Sys2Proof/Laws/HostPort.lean ====
section
/-! SUPPORT. When an instruction waits on the host, and what a step request answers. -/

namespace Sys2Proof.Machine

/-- An instruction waits exactly when it is an OUT or IN whose operand resolves and that the host does not answer (R231,
R232). -/
theorem State.waitsOn_iff (s : State) (i : Instr) :
    s.waitsOn i = true ↔ WordsInMemory s 2 ∧
      ((∃ a x, i = .out a ∧ ValueOf s a x ∧ s.hostOutputReady = false) ∨
        ∃ a d, i = .inp a ∧ DestOf a d ∧ s.hostInput = [] ∧ s.hostInputEnded = false) := by
  cases i with
  | out a =>
    simp only [State.waitsOn]
    obtain ⟨x, h, hm, hx⟩ | ⟨f, h, hf⟩ := State.resolveV_cases s a <;> rw [h]
    · simp only [State.outputWaits, Bool.not_eq_true']
      constructor
      · exact fun hr => ⟨hm, .inl ⟨a, x, rfl, hx, hr⟩⟩
      · rintro ⟨-, ⟨_, _, h, -, hr⟩ | ⟨_, _, h, -⟩⟩
        · exact hr
        · cases h
    · refine iff_of_false Bool.false_ne_true ?_
      rintro ⟨hm, ⟨_, x, he, hx, -⟩ | ⟨_, _, he, -⟩⟩
      · cases he
        rw [State.resolveV, (State.fetchVal_ok_iff s 1 a x).mpr ⟨by simp only [WordsInMemory] at hm; omega, hx⟩] at h
        cases h
      · cases he
  | inp a =>
    simp only [State.waitsOn]
    obtain ⟨d, h, hm, hd⟩ | ⟨f, h, hf⟩ := State.resolveD_cases s a <;> rw [h]
    · simp only [beq_iff_eq, State.inByte_wait_iff]
      constructor
      · exact fun hr => ⟨hm, .inr ⟨a, d, rfl, hd, hr⟩⟩
      · rintro ⟨-, ⟨_, _, h, -⟩ | ⟨_, _, h, -, hr⟩⟩
        · cases h
        · exact hr
    · refine iff_of_false Bool.false_ne_true ?_
      rintro ⟨hm, ⟨_, _, he, -⟩ | ⟨_, d, he, hd, -⟩⟩
      · cases he
      · cases he
        rw [State.resolveD, (State.fetchDst_ok_iff s 1 a d).mpr ⟨by simp only [WordsInMemory] at hm; omega, hd⟩] at h
        cases h
  | _ => simp [State.waitsOn]

/-- The next step waits exactly when the core is RUNNING and the instruction it fetches waits. -/
theorem State.waiting_iff (s : State) :
    s.waiting = true ↔ s.status = .running ∧ ∃ i, s.fetchInstr = .ok i ∧ s.waitsOn i = true := by
  unfold State.waiting
  cases hs : s.status <;> cases hf : s.fetchInstr <;> simp

/-- The state after a step, where the step answers it. -/
theorem State.afterStep_of_next {s t : State} (h : step s = .next t) : s.afterStep = t := by
  simp [State.afterStep, h]

/-- A step is in progress exactly when the core is RUNNING and its step request is pending. -/
theorem State.midStep_iff (s : State) : s.midStep = true ↔ s.status = .running ∧ s.stepPending = true := by
  simp [State.midStep]

/-- The step request of a RUNNING core, where its step answers the next state. -/
theorem State.hostStep_running {s t : State} (hr : s.status = .running) (h : step s = .next t) :
    s.hostStep = ({ t with stepPending := s.waiting }, if s.waiting then .waiting else t.report) := by
  unfold State.hostStep
  rw [hr, State.afterStep_of_next h]

/-- The step request of a stopped core. -/
theorem State.hostStep_stopped (s : State) (h : s.status ≠ .running) : s.hostStep = (s, s.report) := by
  unfold State.hostStep
  cases hs : s.status
  · exact absurd hs h
  all_goals rfl

/-- A request made while a step is in progress is not taken. -/
theorem State.betweenSteps_midStep (s : State) (served : State × HostReply) (h : s.midStep = true) :
    s.betweenSteps served = (s, .notTaken) := by
  simp [State.betweenSteps, h]

/-- A request made between steps is taken. -/
theorem State.betweenSteps_taken (s : State) (served : State × HostReply) (h : s.midStep = false) :
    s.betweenSteps served = served := by
  simp [State.betweenSteps, h]

end Sys2Proof.Machine
end

