-- ==== Sys2Proof/Laws/PerInstr.lean ====
section
/-! SUPPORT. Facts about every instruction as syntax, one lemma per constructor. -/

namespace Sys2Proof.Laws

/-- An instruction's encoding has as many words as its format says, at most 4 (R91). -/
def EncodeLength.Statement (i : Instr) : Prop := (encode i).length = i.length ∧ i.length ≤ 4

theorem EncodeLength.halt : EncodeLength.Statement .halt := ⟨rfl, Nat.le_of_ble_eq_true rfl⟩
theorem EncodeLength.set (a b : Operand) : EncodeLength.Statement (.set a b) := ⟨rfl, Nat.le_of_ble_eq_true rfl⟩
theorem EncodeLength.push (a : Operand) : EncodeLength.Statement (.push a) := ⟨rfl, Nat.le_of_ble_eq_true rfl⟩
theorem EncodeLength.pop (a : Operand) : EncodeLength.Statement (.pop a) := ⟨rfl, Nat.le_of_ble_eq_true rfl⟩
theorem EncodeLength.eq (a b c : Operand) : EncodeLength.Statement (.eq a b c) := ⟨rfl, Nat.le_of_ble_eq_true rfl⟩
theorem EncodeLength.gt (a b c : Operand) : EncodeLength.Statement (.gt a b c) := ⟨rfl, Nat.le_of_ble_eq_true rfl⟩
theorem EncodeLength.jmp (a : Operand) : EncodeLength.Statement (.jmp a) := ⟨rfl, Nat.le_of_ble_eq_true rfl⟩
theorem EncodeLength.jt (a b : Operand) : EncodeLength.Statement (.jt a b) := ⟨rfl, Nat.le_of_ble_eq_true rfl⟩
theorem EncodeLength.jf (a b : Operand) : EncodeLength.Statement (.jf a b) := ⟨rfl, Nat.le_of_ble_eq_true rfl⟩
theorem EncodeLength.add (a b c : Operand) : EncodeLength.Statement (.add a b c) := ⟨rfl, Nat.le_of_ble_eq_true rfl⟩
theorem EncodeLength.mult (a b c : Operand) : EncodeLength.Statement (.mult a b c) := ⟨rfl, Nat.le_of_ble_eq_true rfl⟩
theorem EncodeLength.mod (a b c : Operand) : EncodeLength.Statement (.mod a b c) := ⟨rfl, Nat.le_of_ble_eq_true rfl⟩
theorem EncodeLength.and (a b c : Operand) : EncodeLength.Statement (.and a b c) := ⟨rfl, Nat.le_of_ble_eq_true rfl⟩
theorem EncodeLength.or (a b c : Operand) : EncodeLength.Statement (.or a b c) := ⟨rfl, Nat.le_of_ble_eq_true rfl⟩
theorem EncodeLength.not (a b : Operand) : EncodeLength.Statement (.not a b) := ⟨rfl, Nat.le_of_ble_eq_true rfl⟩
theorem EncodeLength.rmem (a b : Operand) : EncodeLength.Statement (.rmem a b) := ⟨rfl, Nat.le_of_ble_eq_true rfl⟩
theorem EncodeLength.wmem (a b : Operand) : EncodeLength.Statement (.wmem a b) := ⟨rfl, Nat.le_of_ble_eq_true rfl⟩
theorem EncodeLength.call (a : Operand) : EncodeLength.Statement (.call a) := ⟨rfl, Nat.le_of_ble_eq_true rfl⟩
theorem EncodeLength.ret : EncodeLength.Statement .ret := ⟨rfl, Nat.le_of_ble_eq_true rfl⟩
theorem EncodeLength.out (a : Operand) : EncodeLength.Statement (.out a) := ⟨rfl, Nat.le_of_ble_eq_true rfl⟩
theorem EncodeLength.inp (a : Operand) : EncodeLength.Statement (.inp a) := ⟨rfl, Nat.le_of_ble_eq_true rfl⟩
theorem EncodeLength.noop : EncodeLength.Statement .noop := ⟨rfl, Nat.le_of_ble_eq_true rfl⟩

end Sys2Proof.Laws
end

