-- ==== Sys2Proof/Tests/Slice0.lean ====
section
/-! SUPPORT. The model's own tests. Words and expected values come from spec/95_test_vectors.md and spec/30_encoding.md, never
from the model. Then, for every statement with hypotheses, a state and operands that meet them. -/

namespace Sys2Proof.Tests

open Sys2Proof.Machine

/-! ### WellFormed: an ill-formed term for each slot -/

theorem test_illformed_operand_literal : ¬ (Operand.invalid 32767).WellFormed := by decide
theorem test_illformed_operand_register : ¬ (Operand.invalid 32775).WellFormed := by decide
theorem test_wellformed_operand_invalid : (Operand.invalid 32776).WellFormed ∧ (Operand.invalid 65535).WellFormed := by decide

theorem test_illformed_push : ¬ (Instr.push (.invalid 5)).WellFormed := by decide
theorem test_illformed_pop : ¬ (Instr.pop (.invalid 5)).WellFormed := by decide
theorem test_illformed_jmp : ¬ (Instr.jmp (.invalid 5)).WellFormed := by decide
theorem test_illformed_call : ¬ (Instr.call (.invalid 5)).WellFormed := by decide
theorem test_illformed_out : ¬ (Instr.out (.invalid 5)).WellFormed := by decide
theorem test_illformed_inp : ¬ (Instr.inp (.invalid 5)).WellFormed := by decide
theorem test_illformed_set : ¬ (Instr.set (.invalid 5) (.lit 0)).WellFormed ∧ ¬ (Instr.set (.reg 0) (.invalid 5)).WellFormed := by decide
theorem test_illformed_jt : ¬ (Instr.jt (.invalid 5) (.lit 0)).WellFormed ∧ ¬ (Instr.jt (.reg 0) (.invalid 5)).WellFormed := by decide
theorem test_illformed_jf : ¬ (Instr.jf (.invalid 5) (.lit 0)).WellFormed ∧ ¬ (Instr.jf (.reg 0) (.invalid 5)).WellFormed := by decide
theorem test_illformed_not : ¬ (Instr.not (.invalid 5) (.lit 0)).WellFormed ∧ ¬ (Instr.not (.reg 0) (.invalid 5)).WellFormed := by decide
theorem test_illformed_rmem : ¬ (Instr.rmem (.invalid 5) (.lit 0)).WellFormed ∧ ¬ (Instr.rmem (.reg 0) (.invalid 5)).WellFormed := by decide
theorem test_illformed_wmem : ¬ (Instr.wmem (.invalid 5) (.lit 0)).WellFormed ∧ ¬ (Instr.wmem (.reg 0) (.invalid 5)).WellFormed := by decide
theorem test_illformed_eq : ¬ (Instr.eq (.invalid 5) (.lit 0) (.lit 0)).WellFormed ∧
    ¬ (Instr.eq (.reg 0) (.invalid 5) (.lit 0)).WellFormed ∧ ¬ (Instr.eq (.reg 0) (.lit 0) (.invalid 5)).WellFormed := by decide
theorem test_illformed_gt : ¬ (Instr.gt (.invalid 5) (.lit 0) (.lit 0)).WellFormed ∧
    ¬ (Instr.gt (.reg 0) (.invalid 5) (.lit 0)).WellFormed ∧ ¬ (Instr.gt (.reg 0) (.lit 0) (.invalid 5)).WellFormed := by decide
theorem test_illformed_add : ¬ (Instr.add (.invalid 5) (.lit 0) (.lit 0)).WellFormed ∧
    ¬ (Instr.add (.reg 0) (.invalid 5) (.lit 0)).WellFormed ∧ ¬ (Instr.add (.reg 0) (.lit 0) (.invalid 5)).WellFormed := by decide
theorem test_illformed_mult : ¬ (Instr.mult (.invalid 5) (.lit 0) (.lit 0)).WellFormed ∧
    ¬ (Instr.mult (.reg 0) (.invalid 5) (.lit 0)).WellFormed ∧ ¬ (Instr.mult (.reg 0) (.lit 0) (.invalid 5)).WellFormed := by decide
theorem test_illformed_mod : ¬ (Instr.mod (.invalid 5) (.lit 0) (.lit 0)).WellFormed ∧
    ¬ (Instr.mod (.reg 0) (.invalid 5) (.lit 0)).WellFormed ∧ ¬ (Instr.mod (.reg 0) (.lit 0) (.invalid 5)).WellFormed := by decide
theorem test_illformed_and : ¬ (Instr.and (.invalid 5) (.lit 0) (.lit 0)).WellFormed ∧
    ¬ (Instr.and (.reg 0) (.invalid 5) (.lit 0)).WellFormed ∧ ¬ (Instr.and (.reg 0) (.lit 0) (.invalid 5)).WellFormed := by decide
theorem test_illformed_or : ¬ (Instr.or (.invalid 5) (.lit 0) (.lit 0)).WellFormed ∧
    ¬ (Instr.or (.reg 0) (.invalid 5) (.lit 0)).WellFormed ∧ ¬ (Instr.or (.reg 0) (.lit 0) (.invalid 5)).WellFormed := by decide
theorem test_wellformed_plain : Instr.halt.WellFormed ∧ Instr.ret.WellFormed ∧ Instr.noop.WellFormed := by decide

/-! ### Decoding: words written out from the encodings of 30_encoding.md, in decimal as the spec writes them or bit by bit -/

theorem test_decode_halt : decode [0] = .ok (.halt, []) := by decide
theorem test_decode_set : decode [1, 32768, 4] = .ok (.set (.reg 0) (.lit 4), []) := by decide
theorem test_decode_push : decode [2, 7] = .ok (.push (.lit 7), []) := by decide
theorem test_decode_pop : decode [3, 32769] = .ok (.pop (.reg 1), []) := by decide
theorem test_decode_eq : decode [4, 32770, 32768, 32769] = .ok (.eq (.reg 2) (.reg 0) (.reg 1), []) := by decide
theorem test_decode_gt : decode [5, 32771, 10, 9] = .ok (.gt (.reg 3) (.lit 10) (.lit 9), []) := by decide
theorem test_decode_jmp : decode [6, 100] = .ok (.jmp (.lit 100), []) := by decide
theorem test_decode_jt : decode [7, 32768, 3] = .ok (.jt (.reg 0) (.lit 3), []) := by decide
theorem test_decode_jf : decode [8, 0, 100] = .ok (.jf (.lit 0) (.lit 100), []) := by decide
theorem test_decode_add : decode [9, 32768, 32768, 32767] = .ok (.add (.reg 0) (.reg 0) (.lit 32767), []) := by decide
theorem test_decode_mult : decode [10, 32769, 300, 200] = .ok (.mult (.reg 1) (.lit 300) (.lit 200), []) := by decide
theorem test_decode_mod : decode [11, 32770, 32769, 10] = .ok (.mod (.reg 2) (.reg 1) (.lit 10), []) := by decide
theorem test_decode_and : decode [12, 32772, 32771, 255] = .ok (.and (.reg 4) (.reg 3) (.lit 255), []) := by decide
theorem test_decode_or : decode [13, 32773, 32772, 256] = .ok (.or (.reg 5) (.reg 4) (.lit 256), []) := by decide
theorem test_decode_not : decode [14, 32771, 32770] = .ok (.not (.reg 3) (.reg 2), []) := by decide
theorem test_decode_rmem : decode [15, 32770, 100] = .ok (.rmem (.reg 2) (.lit 100), []) := by decide
theorem test_decode_wmem : decode [16, 100, 32768] = .ok (.wmem (.lit 100) (.reg 0), []) := by decide
theorem test_decode_call : decode [17, 10] = .ok (.call (.lit 10), []) := by decide
theorem test_decode_ret : decode [18] = .ok (.ret, []) := by decide
theorem test_decode_out : decode [19, 65] = .ok (.out (.lit 65), []) := by decide
theorem test_decode_inp : decode [20, 32771] = .ok (.inp (.reg 3), []) := by decide
theorem test_decode_noop : decode [21] = .ok (.noop, []) := by decide
theorem test_decode_bits : decode [0b0000000000001001, 0b1000000000000111, 0b0111111111111111, 0b1000000000001000] =
    .ok (.add (.reg 7) (.lit 32767) (.invalid 32776), []) := by decide
theorem test_decode_rest : decode [21, 7] = .ok (.noop, [7]) := by decide
theorem test_decode_rejects : decode [] = .error .noWord ∧ decode [22] = .error (.invalidOpcode 22) ∧
    decode [65535, 0] = .error (.invalidOpcode 65535) ∧ decode [9, 32768] = .error (.truncated .add) := by decide
theorem test_decode_bytes : decodeBytes [0x01, 0x00, 0x01, 0x80, 0x04] = .error (.truncated .set) ∧
    decodeBytes [0x13, 0x00, 0x41, 0x00, 0xFF] = .ok (.out (.lit 65), []) := by decide
theorem test_encode_set : encode (.set (.reg 0) (.lit 4)) = [1, 32768, 4] := by decide
theorem test_encode_bytes : bytesOfWords [32769, 4] = [0x01, 0x80, 0x04, 0x00] := by decide

theorem test_table_words_low : [0, 1, 2, 3, 4, 5, 6, 7, 8, 9, 10].map (decodeTableWord 16) =
    [some (.halt),
      some (.set (.lit 0) (.lit 0)),
      some (.push (.lit 0)),
      some (.pop (.lit 0)),
      some (.eq (.lit 0) (.lit 0) (.lit 0)),
      some (.gt (.lit 0) (.lit 0) (.lit 0)),
      some (.jmp (.lit 0)),
      some (.jt (.lit 0) (.lit 0)),
      some (.jf (.lit 0) (.lit 0)),
      some (.add (.lit 0) (.lit 0) (.lit 0)),
      some (.mult (.lit 0) (.lit 0) (.lit 0))] := by decide
theorem test_table_words_high : [11, 12, 13, 14, 15, 16, 17, 18, 19, 20, 21].map (decodeTableWord 16) =
    [some (.mod (.lit 0) (.lit 0) (.lit 0)),
      some (.and (.lit 0) (.lit 0) (.lit 0)),
      some (.or (.lit 0) (.lit 0) (.lit 0)),
      some (.not (.lit 0) (.lit 0)),
      some (.rmem (.lit 0) (.lit 0)),
      some (.wmem (.lit 0) (.lit 0)),
      some (.call (.lit 0)),
      some (.ret),
      some (.out (.lit 0)),
      some (.inp (.lit 0)),
      some (.noop)] := by decide
theorem test_table_word_operands : decodeTableWord 48 (1 + 32768 * 2 ^ 16 + 4 * 2 ^ 32) = some (.set (.reg 0) (.lit 4)) := by decide

/-! ### Steps. `after` puts the words at pc and makes one step. -/

/-- The reset state at another pc and with some registers preset. -/
def core (pc : Word) (regs : List (RegIndex × Word)) : State :=
  { State.reset with pc := pc, regs := regs.foldl (fun v p => v.set p.1 p.2) State.reset.regs }

/-- The state after one step from `s` with these words placed at its pc. -/
def after (words : List Word) (s : State) : State :=
  State.afterStep { s with mem := s.mem.pokeAll s.pc.toNat words }

/-- What a fault leaves: its cause, FAULT_PC, FAULT_INFO and pc. -/
def faulted (s : State) (cause : FaultCause) (pc info : Word) : Bool :=
  decide (s.status = .faulted ∧ s.faultCause = cause ∧ s.faultPc = pc ∧ s.faultInfo = info ∧ s.pc = pc)

theorem test_withFetchWord : step (State.reset.withFetchWord 16 21) = .next { State.reset.withFetchWord 16 21 with pc := 1 } := by
  rfl
theorem test_withFetchWord_halt :
    step (State.reset.withFetchWord 16 0) = .next { State.reset.withFetchWord 16 0 with status := .halted } := by
  rfl
theorem test_memory_reset_wf : State.reset.mem.wf = true := by decide
theorem test_memory_poke : ((Memory.poke [] 5 7).poke 3 9).poke 5 0 = [(3, 9)] ∧
    Memory.poke [(3, 9)] 32767 1 = [(3, 9), (32767, 1)] := by decide

theorem test_halt : (after [0] (core 0 [])).status = .halted ∧ (after [0] (core 0 [])).pc = 0 := by decide
theorem test_halted_step : (after [21] { core 10 [] with status := .halted }).pc = 10 := by decide
theorem test_noop : (after [21] (core 10 [])).pc = 11 := by decide
theorem test_noop_at_end : (after [21] (core 32767 [])).pc = 32768 := by decide
theorem test_set : (after [1, 32768, 32767] (core 0 [])).regs[0] = 32767 ∧ (after [1, 32768, 32767] (core 0 [])).pc = 3 := by decide
theorem test_set_no_second_dereference : (after [1, 32768, 32769] (core 0 [(1, 32770)])).regs[0] = 32770 := by decide
theorem test_set_invalid_operand : faulted (after [1, 32768, 32776] (core 0 [])) .invalidOperand 0 32776 := by decide
theorem test_set_invalid_destination : faulted (after [1, 5, 7] (core 0 [])) .invalidDestination 0 5 := by decide
theorem test_set_invalid_register_value : faulted (after [1, 32768, 32769] (core 0 [(1, 40000)])) .invalidRegisterValue 0 40000 := by decide
theorem test_fault_priority : faulted (after [9, 5, 40000, 32768] (core 0 [])) .invalidDestination 0 5 := by decide
theorem test_fault_operand_order : faulted (after [9, 32768, 40000, 40001] (core 0 [])) .invalidOperand 0 40000 := by decide
theorem test_invalid_opcode : faulted (after [22] (core 0 [])) .invalidOpcode 0 22 := by decide
theorem test_truncated_add : faulted (after [9, 32768] (core 32766 [])) .fetchOutOfBounds 32766 32768 := by decide
theorem test_fetch_out_of_bounds : faulted (after [] (core 32768 [])) .fetchOutOfBounds 32768 32768 := by decide
theorem test_push : (after [2, 32770] (core 0 [(2, 32770)])).stack = [32770] ∧ (after [2, 7] (core 0 [])).pc = 2 := by decide
theorem test_push_overflow : faulted (after [2, 3] { core 0 [] with stack := [1, 2], cfg := ⟨.words 2⟩ }) .stackOverflow 0 0 := by decide
theorem test_pop : (after [3, 32769] { core 0 [] with stack := [7, 4] }).stack = [7] ∧
    (after [3, 32769] { core 0 [] with stack := [7, 4] }).regs[1] = 4 := by decide
theorem test_pop_underflow : faulted (after [3, 32769] (core 0 [])) .stackUnderflow 0 0 ∧
    faulted (after [3, 5] (core 0 [])) .invalidDestination 0 5 := by decide
theorem test_eq : (after [4, 32768, 32769, 5] (core 0 [(1, 5)])).regs[0] = 1 ∧ (after [4, 32768, 5, 6] (core 0 [(0, 9)])).regs[0] = 0 := by decide
/-- EQ of a register with itself, and the words of R170's corner case as log 17 reads them: the operand 32770 is r2. -/
theorem test_eq_self : (after [4, 32768, 32768, 32768] (core 0 [(0, 3)])).regs[0] = 1 ∧
    (after [4, 32768, 32769, 32770] (core 0 [(1, 32770), (2, 32770)])).regs[0] = 1 ∧
    (after [4, 32768, 32769, 32770] (core 0 [(0, 9), (1, 32770)])).regs[0] = 0 := by decide
theorem test_gt : (after [5, 32768, 32769, 32767] (core 0 [(1, 32768)])).regs[0] = 1 := by decide
theorem test_gt_order : (after [5, 32768, 0, 32767] (core 0 [(0, 9)])).regs[0] = 0 ∧ (after [5, 32768, 5, 5] (core 0 [(0, 9)])).regs[0] = 0 := by decide
theorem test_jmp : (after [6, 100] (core 0 [])).pc = 100 ∧ (after [6, 32768] (core 0 [(0, 32768)])).pc = 32768 := by decide
theorem test_jt : (after [7, 1, 100] (core 10 [])).pc = 100 ∧ (after [7, 0, 100] (core 10 [])).pc = 13 := by decide
theorem test_jt_target_resolved : faulted (after [7, 0, 40000] (core 10 [])) .invalidOperand 10 40000 := by decide
theorem test_jf : (after [8, 0, 100] (core 10 [])).pc = 100 ∧ (after [8, 5, 100] (core 10 [])).pc = 13 := by decide
theorem test_jf_at_end : (after [8, 1, 0] (core 32765 [])).pc = 32768 := by decide
theorem test_call : (after [17, 32768] (core 3 [(0, 3)])).stack = [5] ∧ (after [17, 32768] (core 3 [(0, 3)])).pc = 3 := by decide
theorem test_call_at_end : (after [17, 0] (core 32766 [])).stack = [32768] ∧ (after [17, 0] (core 32766 [])).pc = 0 := by decide
theorem test_ret : (after [18] { core 0 [] with stack := [7, 4] }).pc = 4 ∧ (after [18] { core 0 [] with stack := [7, 4] }).stack = [7] := by decide
theorem test_ret_halts : (after [18] (core 23 [])).status = .retHalted ∧ (after [18] (core 23 [])).pc = 23 := by decide
theorem test_add : (after [9, 32768, 32767, 32767] (core 0 [])).regs[0] = 32766 ∧ (after [9, 32768, 32767, 1] (core 0 [(0, 9)])).regs[0] = 0 := by decide
theorem test_add_register : (after [9, 32768, 32769, 0] (core 0 [(1, 32775)])).regs[0] = 7 := by decide
theorem test_mult : (after [10, 32768, 32767, 32767] (core 0 [])).regs[0] = 1 ∧ (after [10, 32769, 300, 200] (core 0 [])).regs[1] = 27232 := by decide
theorem test_mult_wraps : (after [10, 32768, 256, 128] (core 0 [(0, 9)])).regs[0] = 0 := by decide
theorem test_mod : (after [11, 32770, 32766, 10] (core 0 [])).regs[2] = 6 ∧
    (after [11, 32768, 32769, 32770] (core 0 [(1, 32770), (2, 32771)])).regs[0] = 32770 := by decide
theorem test_mod_zero : faulted (after [11, 32768, 5, 0] (core 0 [])) .divideByZero 0 0 := by decide
theorem test_and : (after [12, 32772, 32761, 255] (core 0 [])).regs[4] = 249 := by decide
theorem test_and_bit15 : (after [12, 32768, 32769, 32770] (core 0 [(1, 32770), (2, 32771)])).regs[0] = 32770 := by decide
theorem test_or : (after [13, 32773, 249, 256] (core 0 [])).regs[5] = 505 := by decide
theorem test_or_bit15 : (after [13, 32768, 32769, 1] (core 0 [(1, 32768)])).regs[0] = 32769 := by decide
theorem test_not : (after [14, 32768, 21845] (core 0 [])).regs[0] = 10922 ∧ (after [14, 32768, 21845] (core 0 [])).pc = 3 := by decide
theorem test_not_bit15 : (after [14, 32768, 32769] (core 0 [(1, 32768)])).regs[0] = 32767 := by decide
theorem test_rmem : (after [15, 32768, 0] (core 0 [])).regs[0] = 15 ∧
    (after [15, 32769, 9] { core 0 [] with mem := [(9, 40000)] }).regs[1] = 40000 := by decide
theorem test_rmem_out_of_bounds : faulted (after [15, 32768, 32769] (core 0 [(1, 32768)])) .dataOutOfBounds 0 32768 := by decide
theorem test_wmem : (after [16, 100, 32768] (core 0 [(0, 1234)])).mem.read 100 = some 1234 ∧
    (after [16, 0, 21] (core 0 [])).mem.read 0 = some 21 := by decide
theorem test_wmem_out_of_bounds : faulted (after [16, 32768, 1] (core 0 [(0, 32775)])) .dataOutOfBounds 0 32775 := by decide
theorem test_out : (after [19, 321] (core 0 [])).hostOutput = [0x41] ∧ (after [19, 32768] (core 0 [(0, 32770)])).hostOutput = [0x02] := by decide
theorem test_out_waits : (after [19, 65] { core 0 [] with hostOutputReady := false }).pc = 0 := by decide
theorem test_in : (after [20, 32768] { core 0 [] with hostInput := [0xFF, 0x61] }).regs[0] = 255 ∧
    (after [20, 32768] { core 0 [] with hostInput := [0xFF, 0x61] }).hostInput = [0x61] := by decide
theorem test_in_eof : faulted (after [20, 32768] { core 0 [] with hostInputEnded := true }) .inputEof 0 0 ∧
    (after [20, 5] { core 0 [] with hostInput := [0x61] }).hostInput = [0x61] := by decide
theorem test_load : (State.reset.load [0x01, 0x80, 0x04, 0x00]).1.mem = [(0, 32769), (1, 4)] := by decide
theorem test_load_odd : (State.reset.load [0x13, 0x00, 0x41, 0x00, 0x00, 0x00, 0xFF]).1.mem = [(0, 19), (1, 65)] := by decide
/-- IN r3 waits; a load and a reset while it waits are not taken; its byte then ends the step, and a load is taken (R67). -/
theorem test_load_between_steps :
    let start : State := { core 0 [] with mem := [(0, 20), (1, 32771)] }
    let waits := (start.serve .step).1
    let held := ((waits.serve (.load [0xFF, 0xFF])).1.serve .reset).1
    let answered := ((held.serve (.supplyInput [0x61])).1.serve .step).1
    (start.serve .step).2 = .stepped .waiting ∧ (waits.serve (.load [0xFF, 0xFF])).2 = .notTaken ∧ held.mem = start.mem ∧
      answered.regs[3] = 97 ∧ answered.pc = 2 ∧ (answered.serve (.load [0xFF, 0xFF])).2 = .loaded .ok := by decide
theorem test_mnemonics : Opcode.inp.mnemonic = "IN" ∧ (AsmLine.instr (.set (.reg 0) (.lit 4))).text = some "SET r0 4" := by
  decide
theorem test_assemble_E2 : assembleText "SET r0 4; SET r1 1; EQ r2 r0 r1; OUT r2" =
    some [1, 32768, 4, 1, 32769, 1, 4, 32770, 32768, 32769, 19, 32770] := by decide
theorem test_assemble_rejects : assembleText ".word 65535; NOOP" = some [65535, 21] ∧ assembleText ".word 65536" = none ∧
    assembleText "SET r8 4" = none ∧ assembleText "SET r0" = none ∧ assembleText "SHL r0 1" = none := by decide

/-! ### Witnesses: a state and operands that meet the hypotheses of each statement that has some, clause by clause -/

/-- Registers that hold the boundary values 0, 1, 32767, 32768, 32775, 32776, 40000, 65535. -/
def edges : Vector Word 8 := #v[0, 1, 32767, 32768, 32775, 32776, 40000, 65535]

/-- The reset state at a pc with those registers. -/
def edge (pc : Word) : State := { State.reset with pc := pc, regs := edges }

/-- A stack with a finite capacity. -/
def stacked (pc : Word) (stack : List Word) (k : Nat) : State := { edge pc with stack := stack, cfg := ⟨.words k⟩ }

theorem witness_DecodeOfEncodedInstruction :
    (Instr.add (.reg 7) (.lit 32767) (.invalid 32776)).WellFormed ∧ (Instr.or (.reg 0) (.lit 0) (.invalid 65535)).WellFormed := by
  decide
theorem witness_EncodeOfDecodedWords :
    decode [9, 32775, 32767, 65535, 7] = .ok (.add (.reg 7) (.lit 32767) (.invalid 65535), [7]) := by decide
theorem witness_OperandWordClasses_literal : (0 : Word).toNat ≤ 32767 ∧ (32767 : Word).toNat ≤ 32767 ∧
    Operand.ofWord 0 = .lit 0 ∧ Operand.ofWord 32767 = .lit 32767 := by decide
theorem witness_OperandWordClasses_register : 32768 ≤ (32768 : Word).toNat ∧ (32775 : Word).toNat ≤ 32775 ∧
    Operand.ofWord 32768 = .reg 0 ∧ Operand.ofWord 32775 = .reg 7 := by decide
theorem witness_OperandWordClasses_invalid : 32776 ≤ (32776 : Word).toNat ∧
    Operand.ofWord 32776 = .invalid 32776 ∧ Operand.ofWord 65535 = .invalid 65535 := by decide
theorem witness_OpcodeMapRows : 22 ≤ (22 : Word).toNat ∧ Opcode.ofWord 22 = none ∧ 22 ≤ (65535 : Word).toNat ∧
    Opcode.ofWord 65535 = none ∧ Opcode.ofWord 21 = some .noop := by decide

/-- NOT r3 r2 in the last three words of memory. -/
def lastNot : State := { edge 32765 with mem := [(32765, 14), (32766, 32771), (32767, 32770)] }

theorem witness_StepRunsDecodedInstruction :
    lastNot.status = .running ∧ lastNot.pc.toNat < 32768 ∧
      decode lastNot.fetchWindow = .ok (.not (.reg 3) (.reg 2), [0]) := by decide

theorem witness_StepRunsEncodedInstruction :
    lastNot.status = .running ∧ (Instr.not (.reg 3) (.reg 2)).WellFormed ∧
      WordsInMemory lastNot (Instr.not (.reg 3) (.reg 2)).length ∧
      ∀ k w, (encode (.not (.reg 3) (.reg 2)))[k]? = some w → lastNot.mem.read (lastNot.pc.toNat + k) = some w := by
  refine ⟨by decide, by decide, by decide, ?_⟩
  intro k w h
  match k with
  | 0 | 1 | 2 => rw [← h]; decide
  | _ + 3 => simp [encode, Instr.operands] at h

theorem witness_FetchAndOpcodeFaults :
    (edge 32768).status = .running ∧ 32768 ≤ (edge 32768).pc.toNat ∧ 32768 ≤ (edge 65535).pc.toNat ∧
      Memory.read [(32767, 22)] (edge 32767).pc.toNat = some 22 ∧ 22 ≤ (22 : Word).toNat := by decide

/-! One operand fault of each kind. -/

theorem witness_operandFault_fetch : FirstOperandFault (edge 32767) 1 (Instr.push (.lit 0)).slots ⟨.fetchOutOfBounds, 32768⟩ :=
  .fetch 1 _ _ (by decide)
theorem witness_operandFault_destination :
    FirstOperandFault (edge 0) 1 (Instr.pop (.lit 32767)).slots ⟨.invalidDestination, 32767⟩ ∧
      FirstOperandFault (edge 0) 1 (Instr.inp (.invalid 32776)).slots ⟨.invalidDestination, 32776⟩ :=
  ⟨.destination 1 (.lit 32767) _ (by decide) nofun, .destination 1 (.invalid 32776) _ (by decide) nofun⟩
theorem witness_operandFault_operand :
    FirstOperandFault (edge 0) 1 (Instr.out (.invalid 65535)).slots ⟨.invalidOperand, 65535⟩ :=
  .operand 1 _ _ (by decide)
theorem witness_operandFault_content :
    FirstOperandFault (edge 0) 1 (Instr.jmp (.reg 5)).slots ⟨.invalidRegisterValue, 32776⟩ :=
  .content 1 5 _ (by decide) (by decide)

/-- The second operand faults, the first one resolves. -/
theorem secondFaults (s : State) (k : Nat) (slot : SlotKind × Operand) (rest : List (SlotKind × Operand)) (w : Word)
    (h : s.pc.toNat + k + 1 < 32768) (hr : SlotResolves s slot) :
    FirstOperandFault s k (slot :: (.value, .invalid w) :: rest) ⟨.invalidOperand, w⟩ :=
  .later k _ _ _ (by omega) hr (.operand (k + 1) w _ (by omega))

theorem edgeSlot (pc : Word) : SlotResolves (edge pc) (.destination, .reg 0) ∧ SlotResolves (edge pc) (.value, .reg 4) :=
  ⟨⟨0, rfl⟩, ⟨32775, rfl, by decide⟩⟩

theorem witness_operandFault_later :
    FirstOperandFault (edge 0) 1 (Instr.set (.reg 0) (.invalid 40000)).slots ⟨.invalidOperand, 40000⟩ :=
  secondFaults _ _ _ _ _ (by decide) (edgeSlot 0).1

/-! Each format's operand fault, for the statements that say an instruction takes its resolution faults. -/

theorem witness_resolutionFaults_V (i : Instr) (h : i = .push (.invalid 40000) ∨ i = .jmp (.invalid 40000) ∨
    i = .call (.invalid 40000) ∨ i = .out (.invalid 40000)) :
    FirstOperandFault (edge 0) 1 i.slots ⟨.invalidOperand, 40000⟩ := by
  rcases h with rfl | rfl | rfl | rfl <;> exact .operand 1 _ _ (by decide)
theorem witness_resolutionFaults_D (i : Instr) (h : i = .pop (.lit 5) ∨ i = .inp (.lit 5)) :
    FirstOperandFault (edge 0) 1 i.slots ⟨.invalidDestination, 5⟩ := by
  rcases h with rfl | rfl <;> exact .destination 1 (.lit 5) _ (by decide) nofun
theorem witness_resolutionFaults_VV (i : Instr) (h : i = .jt (.reg 4) (.invalid 40000) ∨ i = .jf (.reg 4) (.invalid 40000) ∨
    i = .wmem (.reg 4) (.invalid 40000)) : FirstOperandFault (edge 0) 1 i.slots ⟨.invalidOperand, 40000⟩ := by
  rcases h with rfl | rfl | rfl <;> exact secondFaults _ _ _ _ _ (by decide) (edgeSlot 0).2
theorem witness_resolutionFaults_DV (i : Instr) (h : i = .set (.reg 0) (.invalid 40000) ∨
    i = .not (.reg 0) (.invalid 40000) ∨ i = .rmem (.reg 0) (.invalid 40000)) :
    FirstOperandFault (edge 0) 1 i.slots ⟨.invalidOperand, 40000⟩ := by
  rcases h with rfl | rfl | rfl <;> exact secondFaults _ _ _ _ _ (by decide) (edgeSlot 0).1
theorem witness_resolutionFaults_DVV (o : Opcode) (h : o ∈ [Opcode.eq, .gt, .add, .mult, .mod, .and, .or]) :
    FirstOperandFault (edge 0) 1 (o.instr (.reg 0) (.invalid 40000) (.invalid 40001)).slots ⟨.invalidOperand, 40000⟩ := by
  cases o <;> first | exact secondFaults _ _ _ _ _ (by decide) (edgeSlot 0).1 | simp at h

theorem witness_FirstOperandFaultIsTaken :
    FirstOperandFault (edge 32766) 1 (Instr.add (.reg 0) (.lit 1) (.lit 2)).slots ⟨.fetchOutOfBounds, 32768⟩ :=
  .later 1 _ _ _ (by decide) ⟨0, rfl⟩ (.fetch 2 _ _ (by decide))

/-- The first two words of an ADD at the end of memory. -/
def cutAdd : State := { edge 32766 with mem := [(32766, 9), (32767, 32768)] }

theorem witness_FirstOperandFaultStopsStep :
    cutAdd.status = .running ∧ cutAdd.pc.toNat < 32768 ∧ (Instr.add (.reg 0) (.lit 1) (.lit 2)).WellFormed ∧
      (∀ k w, (encode (.add (.reg 0) (.lit 1) (.lit 2)))[k]? = some w → cutAdd.pc.toNat + k < 32768 →
        cutAdd.mem.read (cutAdd.pc.toNat + k) = some w) ∧
      FirstOperandFault cutAdd 1 (Instr.add (.reg 0) (.lit 1) (.lit 2)).slots ⟨.fetchOutOfBounds, 32768⟩ := by
  refine ⟨by decide, by decide, by decide, ?_, .later 1 _ _ _ (by decide) ⟨0, rfl⟩ (.fetch 2 _ _ (by decide))⟩
  intro k w h hk
  match k with
  | 0 | 1 => rw [← h]; decide
  | k + 2 => exact absurd hk (by simp [cutAdd, edge]; omega)

theorem witness_OperandsResolveOrFaultOnce :
    (∃ f g, FirstOperandFault (edge 0) 1 (Instr.jmp (.reg 5)).slots f ∧
      FirstOperandFault (edge 0) 1 (Instr.jmp (.reg 5)).slots g) ∧
    (edge 32764).pc.toNat + 1 + 3 ≤ 32768 ∧ ∀ slot ∈ (Instr.jt (.reg 4) (.reg 4)).slots, SlotResolves (edge 32764) slot :=
  ⟨⟨_, _, witness_operandFault_content, witness_operandFault_content⟩, by decide, by
    simpa [Instr.slots, Instr.opcode, Instr.operands, Opcode.format, Format.kinds] using (edgeSlot 32764).2⟩

/-- RET at address 23. -/
def retAt23 : State := { edge 23 with mem := [(23, 18)] }

theorem witness_StoppedCoreStaysStopped :
    { edge 0 with status := .halted }.status ≠ .running ∧ { edge 0 with status := .retHalted }.status ≠ .running ∧
      { edge 0 with status := .faulted }.status ≠ .running := by decide

/-- The step reports of R138, each met by a step: HALT at word 0, a fault at pc 65535, CONTINUE, HALT by RET. -/
theorem witness_StoppedCoreStaysStopped_reports :
    (step (edge 0) = .next (edge 0).afterStep ∧ (edge 0).waiting = false ∧ (edge 0).afterStep.status = .halted) ∧
      (step (edge 65535) = .next (edge 65535).afterStep ∧ (edge 65535).waiting = false ∧
        (edge 65535).afterStep.status = .faulted) ∧
      (step lastNot = .next lastNot.afterStep ∧ lastNot.waiting = false ∧ lastNot.afterStep.status = .running) ∧
      (step retAt23 = .next retAt23.afterStep ∧ retAt23.waiting = false ∧ retAt23.afterStep.status = .retHalted) :=
  ⟨⟨rfl, rfl, rfl⟩, ⟨rfl, rfl, rfl⟩, ⟨rfl, rfl, rfl⟩, rfl, rfl, rfl⟩

/-! Steps that fault, stop, go on and wait. -/


theorem witness_FaultIsPrecise : (edge 65535).status = .running ∧ step (edge 65535) = .next (edge 65535).afterStep ∧
    (edge 65535).afterStep.status = .faulted := ⟨rfl, rfl, rfl⟩
theorem witness_CleanTerminationKeepsState_halt : (edge 0).status = .running ∧ step (edge 0) = .next (edge 0).afterStep ∧
    (edge 0).afterStep.status = .halted := ⟨rfl, rfl, rfl⟩
theorem witness_CleanTerminationKeepsState_ret : retAt23.status = .running ∧ step retAt23 = .next retAt23.afterStep ∧
    retAt23.afterStep.status = .retHalted := ⟨rfl, rfl, rfl⟩
theorem witness_FaultRecordWrittenOnlyByFault : step lastNot = .next lastNot.afterStep ∧
    ¬ (lastNot.status = .running ∧ lastNot.afterStep.status = .faulted) := ⟨rfl, by decide⟩

/-- The invariant holds in these states: running with empty memory, running with a full stack, and faulted. -/
theorem inv_edge (pc : Word) : Inv (edge pc) := ⟨rfl, nofun, trivial, trivial, rfl, rfl, rfl⟩
theorem inv_stacked (pc : Word) : Inv (stacked pc [32775, 0] 2) :=
  ⟨rfl, by simp [stacked], Nat.le_refl 2, Nat.two_pos, rfl, rfl, rfl⟩
theorem inv_faulted : Inv { edge 7 with status := .faulted, faultCause := .invalidOpcode, faultPc := 7, faultInfo := 22 } :=
  ⟨rfl, nofun, trivial, trivial, rfl, by decide⟩

theorem witness_StepKeepsInvariant : (Inv (edge 65535) ∧ step (edge 65535) = .next (edge 65535).afterStep) ∧
    Inv (stacked 0 [32775, 0] 2) ∧ step (stacked 0 [32775, 0] 2) = .next (stacked 0 [32775, 0] 2).afterStep :=
  ⟨⟨inv_edge _, rfl⟩, inv_stacked _, rfl⟩
theorem witness_HostRequestKeepsInvariant : Inv (stacked 0 [32775, 0] 2) ∧
    Inv { edge 7 with status := .faulted, faultCause := .invalidOpcode, faultPc := 7, faultInfo := 22 } :=
  ⟨inv_stacked _, inv_faulted⟩

theorem witness_ResetValues : ∃ s r : State, s.status = .faulted ∧ r = s.hostReset ∧ (0 : Nat) < 32768 ∧ (32767 : Nat) < 32768 :=
  ⟨{ edge 7 with status := .faulted }, _, rfl, rfl, by decide, by decide⟩
theorem witness_HostRequestFrame : HostRequest.load [1] ≠ .reset ∧ HostRequest.load [1] ≠ .step ∧
    (∀ bytes, HostRequest.endInput ≠ .load bytes) ∧ { edge 0 with status := .halted }.status ≠ .running :=
  ⟨by decide, by decide, nofun, by decide⟩

/-! Frames. -/

theorem witness_OnlyDestinationRegisterWritten :
    exec (.set (.reg 7) (.lit 5)) (edge 0) = .next { edge 0 with regs := edges.set 7 5, pc := 3 } ∧
      destinationOf (.set (.reg 7) (.lit 5)) = some 7 ∧ exec .noop (edge 0) = .next { edge 0 with pc := 1 } ∧
      destinationOf .noop = none ∧ destinationOf (.set (.reg 7) (.lit 5)) ≠ some 0 := ⟨rfl, rfl, rfl, rfl, by decide⟩
theorem witness_OnlyWmemWritesMemory :
    (edge 0).mem.wf = true ∧ exec (.wmem (.reg 2) (.reg 4)) (edge 0) = .next { edge 0 with mem := [(32767, 32775)], pc := 3 } ∧
      ValueOf (edge 0) (.reg 2) 32767 ∧ (∀ a b, Instr.noop ≠ .wmem a b) ∧ exec .noop (edge 0) = .next { edge 0 with pc := 1 } :=
  ⟨rfl, rfl, ⟨rfl, by decide⟩, nofun, rfl⟩
theorem witness_OnlyStackInstructionsUseStack :
    (exec .noop (edge 0) = .next { edge 0 with pc := 1 } ∧ Instr.noop.opcode ∉ [Opcode.push, .pop, .call, .ret]) ∧
      exec (.push (.reg 4)) (edge 0) = .next { edge 0 with stack := [32775], pc := 2 } ∧
      exec .ret { edge 0 with stack := [7, 4] } = .next { edge 0 with stack := [7], pc := 4 } := ⟨⟨rfl, by decide⟩, rfl, rfl⟩
theorem witness_OnlyOutAndInUsePorts :
    exec (.out (.reg 4)) (edge 0) = .next { edge 0 with hostOutput := [7], pc := 2 } ∧
      exec (.inp (.reg 0)) { edge 0 with hostInput := [255] } = .next { edge 0 with regs := edges.set 0 255, pc := 2 } :=
  ⟨rfl, rfl⟩
theorem witness_ProgramCannotSeeStatusRegisters :
    SameButStatus (edge 0) { edge 0 with status := .faulted, faultInfo := 9 } ∧
      exec .noop (edge 0) = .next { edge 0 with pc := 1 } ∧
      exec .noop { edge 0 with status := .faulted, faultInfo := 9 } =
        .next { edge 0 with pc := 1, status := .faulted, faultInfo := 9 } := ⟨rfl, rfl, rfl⟩

/-- `i` at `s` goes on to `t`, and does not wait. -/
abbrev GoesOn (i : Instr) (s t : State) : Prop :=
  s.pc.toNat < 32768 ∧ s.status = .running ∧ s.waitsOn i = false ∧ exec i s = .next t ∧ t.status = .running

theorem witness_NextPcOfEachInstruction_jumps :
    GoesOn (.jmp (.reg 4)) (edge 0) { edge 0 with pc := 32775 } ∧
      GoesOn (.call (.lit 0)) (edge 32766) { edge 0 with stack := [32768] } ∧
      GoesOn .ret { edge 5 with stack := [40000] } { edge 40000 with stack := [] } :=
  ⟨⟨by decide, rfl, rfl, rfl, rfl⟩, ⟨by decide, rfl, rfl, rfl, rfl⟩, ⟨by decide, rfl, rfl, rfl, rfl⟩⟩
theorem witness_NextPcOfEachInstruction_branches :
    (GoesOn (.jt (.reg 0) (.lit 9)) (edge 32765) (edge 32768) ∧ ValueOf (edge 32765) (.reg 0) 0) ∧
      (GoesOn (.jt (.reg 4) (.lit 9)) (edge 0) (edge 9) ∧ ValueOf (edge 0) (.reg 4) 32775) ∧
      GoesOn (.jf (.reg 0) (.lit 9)) (edge 0) (edge 9) ∧ GoesOn (.jf (.reg 4) (.lit 9)) (edge 32765) (edge 32768) :=
  ⟨⟨⟨by decide, rfl, rfl, rfl, rfl⟩, rfl, by decide⟩, ⟨⟨by decide, rfl, rfl, rfl, rfl⟩, rfl, by decide⟩,
    ⟨by decide, rfl, rfl, rfl, rfl⟩, ⟨by decide, rfl, rfl, rfl, rfl⟩⟩
theorem witness_NextPcOfEachInstruction_others :
    GoesOn .noop (edge 32767) (edge 32768) ∧
      GoesOn (.inp (.reg 0)) { edge 32766 with hostInput := [1] } { edge 32768 with regs := edges.set 0 1 } :=
  ⟨⟨by decide, rfl, rfl, rfl, rfl⟩, ⟨by decide, rfl, rfl, rfl, rfl⟩⟩

/-! Instructions. At pc 32768 - n the n words of an instruction just fit. -/

theorem witness_NoopAdvancesPc : (edge 32767).pc = 32767 ∧ (edge 32767).status = .running := ⟨rfl, rfl⟩
theorem witness_SetCopiesValue : WordsInMemory (edge 32765) 3 ∧ DestOf (.reg 7) 7 ∧ ValueOf (edge 32765) (.reg 4) 32775 ∧
    ValueOf (edge 32765) (.lit 32767) 32767 := by decide
theorem witness_PushGrowsStack : WordsInMemory (stacked 32766 [1] 2) 2 ∧ ValueOf (stacked 32766 [1] 2) (.reg 4) 32775 ∧
    (stacked 32766 [1] 2).cfg.stackCapacity ≠ .words (stacked 32766 [1] 2).stack.length ∧
    (stacked 32766 [1, 2] 2).cfg.stackCapacity = .words (stacked 32766 [1, 2] 2).stack.length := by decide
theorem witness_PopTakesTop : WordsInMemory (stacked 32766 [1, 32768] 2) 2 ∧ DestOf (.reg 0) 0 ∧
    (stacked 32766 [1, 32768] 2).stack = [1] ++ [32768] ∧ (edge 32766).stack = [] := by decide
theorem witness_PopUndoesPush : WordsInMemory (stacked 32764 [1] 2) 4 ∧ ValueOf (stacked 32764 [1] 2) (.reg 4) 32775 ∧
    (stacked 32764 [1] 2).cfg.stackCapacity ≠ .words (stacked 32764 [1] 2).stack.length := by decide
theorem witness_ComparisonsWriteTruth : WordsInMemory (edge 32764) 4 ∧ DestOf (.reg 7) 7 ∧
    ValueOf (edge 32764) (.reg 4) 32775 ∧ ValueOf (edge 32764) (.lit 32767) 32767 := by decide
theorem witness_JmpSetsPc : WordsInMemory (edge 32766) 2 ∧ ValueOf (edge 32766) (.reg 3) 32768 ∧
    32768 ≤ (32768 : Word).toNat ∧ (edge 32766).status = .running ∧ ValueOf (edge 32766) (.lit 0) 0 := by decide
theorem witness_ConditionalJumps : WordsInMemory (edge 32765) 3 ∧ ValueOf (edge 32765) (.reg 0) 0 ∧
    ValueOf (edge 32765) (.reg 4) 32775 ∧ ValueOf (edge 32765) (.reg 3) 32768 ∧
    ∃ w, Operand.invalid 32776 = .invalid w := ⟨by decide, by decide, by decide, by decide, _, rfl⟩
theorem witness_CallPushesReturnAddress : WordsInMemory (stacked 32766 [1] 2) 2 ∧
    ValueOf (stacked 32766 [1] 2) (.reg 4) 32775 ∧
    (stacked 32766 [1] 2).cfg.stackCapacity ≠ .words (stacked 32766 [1] 2).stack.length ∧
    (stacked 32766 [1, 2] 2).cfg.stackCapacity = .words (stacked 32766 [1, 2] 2).stack.length := by decide
theorem witness_RetPopsPc : (stacked 0 [7, 40000] 2).stack = [7] ++ [40000] ∧ (edge 0).stack = [] := by decide
theorem witness_RetReturnsAfterCall : WordsInMemory (edge 32766) 2 ∧ ValueOf (edge 32766) (.lit 0) 0 ∧
    (edge 32766).cfg.stackCapacity ≠ .words (edge 32766).stack.length := by decide
theorem witness_AddIsModulo32768 : WordsInMemory (edge 32764) 4 ∧ DestOf (.reg 0) 0 ∧ ValueOf (edge 32764) (.reg 4) 32775 ∧
    ValueOf (edge 32764) (.lit 32767) 32767 := by decide
theorem witness_MultIsModulo32768 : WordsInMemory (edge 32764) 4 ∧ DestOf (.reg 0) 0 ∧ ValueOf (edge 32764) (.reg 4) 32775 ∧
    ValueOf (edge 32764) (.reg 2) 32767 := by decide
theorem witness_ModIsRemainder : WordsInMemory (edge 32764) 4 ∧ DestOf (.reg 0) 0 ∧ ValueOf (edge 32764) (.reg 4) 32775 ∧
    (ValueOf (edge 32764) (.lit 1) 1 ∧ (1 : Word) ≠ 0) ∧ ValueOf (edge 32764) (.reg 0) 0 := by decide
theorem witness_AndOrAreUnmasked : WordsInMemory (edge 32764) 4 ∧ DestOf (.reg 7) 7 ∧ ValueOf (edge 32764) (.reg 4) 32775 ∧
    ValueOf (edge 32764) (.reg 3) 32768 := by decide
theorem witness_NotIsComplement15 : WordsInMemory (edge 32765) 3 ∧ DestOf (.reg 7) 7 ∧ ValueOf (edge 32765) (.reg 3) 32768 ∧
    ValueOf (edge 32765) (.lit 32767) 32767 ∧ (32767 : Word).toNat ≤ 32767 := by decide
theorem witness_RmemReadsMemory : WordsInMemory (edge 32765) 3 ∧ DestOf (.reg 7) 7 ∧
    (ValueOf (edge 32765) (.reg 2) 32767 ∧ (32767 : Word).toNat < 32768) ∧
    ValueOf (edge 32765) (.reg 3) 32768 ∧ 32768 ≤ (32768 : Word).toNat := by decide
theorem witness_WmemWritesMemory : (edge 32765).mem.wf = true ∧ WordsInMemory (edge 32765) 3 ∧
    (ValueOf (edge 32765) (.reg 2) 32767 ∧ (32767 : Word).toNat < 32768) ∧
    (ValueOf (edge 32765) (.reg 3) 32768 ∧ 32768 ≤ (32768 : Word).toNat) ∧ ValueOf (edge 32765) (.reg 4) 32775 := by decide
theorem witness_MemoryReadAfterWrite : Memory.wf [(0, 1), (32767, 65535)] = true ∧ (32767 : Nat) < 32768 ∧
    32768 ≤ (32768 : Nat) := by decide

/-- WMEM 3 r4 at address 0: it writes the word fetched next. -/
def storeAhead : State := { edge 0 with mem := [(0, 16), (1, 3), (2, 32772)] }
theorem witness_StoreIsSeenByNextFetch : storeAhead.mem.wf = true ∧ storeAhead.status = .running ∧
    decode storeAhead.fetchWindow = .ok (.wmem (.lit 3) (.reg 4), [0]) ∧ WordsInMemory storeAhead 3 ∧
    ValueOf storeAhead (.lit 3) 3 ∧ ValueOf storeAhead (.reg 4) 32775 ∧ (3 : Word).toNat < 32768 ∧
    storeAhead.afterStep.pc = 3 := by decide
theorem witness_AccessesReplayToMemory : step storeAhead = .next storeAhead.afterStep ∧
    storeAhead.stepAccesses = [.read 0 16, .read 1 3, .read 2 32772] ++ MemAccess.write 3 32775 :: [] ∧
    MemAccess.read 1 3 ∈ storeAhead.stepAccesses := ⟨rfl, by decide, by decide⟩

/-- RMEM r0 r2 at address 32765, which reads address 32767. -/
def readLast : State := { edge 32765 with mem := [(32765, 15), (32766, 32768), (32767, 32770)] }
theorem witness_AccessesReplayToMemory_order :
    (step readLast = .next readLast.afterStep ∧ readLast.status = .running ∧ readLast.pc.toNat < 32768 ∧
      readLast.afterStep.status ≠ .faulted ∧ decode readLast.fetchWindow = .ok (.rmem (.reg 0) (.reg 2), [0]) ∧
      ValueOf readLast (.reg 2) 32767 ∧ readLast.stepAccesses = readLast.fetchReads 2 ++ [.read 32767 32770]) ∧
    (storeAhead.afterStep.status ≠ .faulted ∧ storeAhead.stepAccesses = storeAhead.fetchReads 2 ++ [.write 3 32775]) ∧
    (cutAdd.afterStep.status = .faulted ∧ cutAdd.stepAccesses = cutAdd.fetchReads 1 ++ []) ∧
    (Memory.read [(0, 22)] 0 = some 22 ∧ { edge 0 with mem := [(0, 22)] }.stepAccesses =
      { edge 0 with mem := [(0, 22)] }.fetchReads 0 ++ []) ∧
    (edge 32768).stepAccesses = [] := ⟨⟨rfl, by decide⟩, by decide⟩
theorem witness_AccessesReplayToMemory_noOperandFault (f : FaultReport) :
    ¬ FirstOperandFault (edge 32767) 1 Instr.noop.slots f := nofun

theorem witness_OutSendsLowByte : WordsInMemory (edge 32766) 2 ∧ ValueOf (edge 32766) (.reg 4) 32775 ∧
    (edge 32766).hostOutputReady = true ∧ { edge 32766 with hostOutputReady := false }.hostOutputReady = false := by decide
theorem witness_InTakesByte : WordsInMemory (edge 32766) 2 ∧ DestOf (.reg 7) 7 ∧
    { edge 32766 with hostInput := [255] }.hostInput = 255 :: [] ∧
    ({ edge 32766 with hostInputEnded := true }.hostInput = [] ∧ { edge 32766 with hostInputEnded := true }.hostInputEnded = true) ∧
    (edge 32766).hostInput = [] ∧ (edge 32766).hostInputEnded = false := by decide

/-- IN r3 with nothing offered, and OUT 65 with the port held. -/
def inWaits : State := { edge 0 with mem := [(0, 20), (1, 32771)] }
def outWaits : State := { edge 0 with mem := [(0, 19), (1, 65)], hostOutputReady := false }
theorem witness_StoppedCoreStaysStopped_waits :
    (inWaits.status = .running ∧ WordsInMemory inWaits 2 ∧
      decode inWaits.fetchWindow = .ok (.inp (.reg 3), [0, 0]) ∧ DestOf (.reg 3) 3 ∧ inWaits.hostInput = [] ∧
      inWaits.hostInputEnded = false) ∧
    outWaits.status = .running ∧ WordsInMemory outWaits 2 ∧
      decode outWaits.fetchWindow = .ok (.out (.lit 65), [0, 0]) ∧ ValueOf outWaits (.lit 65) 65 ∧
      outWaits.hostOutputReady = false := by decide
/-- IN r3 whose step request is pending. -/
def inPending : State := { inWaits with stepPending := true }
theorem witness_RequestsOnlyBetweenSteps : inPending.midStep = true ∧ inWaits.midStep = false ∧ inWaits.status = .running ∧
    inWaits.waiting = true ∧ lastNot.status = .running ∧ lastNot.waiting = false ∧
    HostRequest.step ∉ [HostRequest.load [1, 0], .reset, .supplyInput [7]] := by decide
theorem witness_RequestsOnlyBetweenSteps_fits : StepInProgressFits inPending :=
  fun _ => ⟨by decide, .inr ⟨.reg 3, [0, 0], 3, by decide, rfl⟩⟩
/-- The first try of IN r3 fetches its two words; going on with it fetches nothing. -/
theorem witness_AccessesReplayToMemory_inProgress : inPending.midStep = true ∧ StepInProgressFits inPending ∧
    step inPending = .next inPending.afterStep ∧ inPending.stepAccesses = [] ∧
    inWaits.stepAccesses = [.read 0 20, .read 1 32771] :=
  ⟨rfl, witness_RequestsOnlyBetweenSteps_fits, rfl, by decide, by decide⟩
theorem witness_WaitsOnlyOnHost : inWaits.waiting = true ∧ outWaits.waiting = true := by decide
theorem witness_EndOfInputStands : { edge 0 with hostInputEnded := true, hostInput := [1] }.hostInputEnded = true := rfl
theorem witness_RunReturnsTheOutcome : (edge 65535).run 1 = some ((edge 65535).raise ⟨.fetchOutOfBounds, 65535⟩, .fault .fetchOutOfBounds) ∧
    (edge 0).run 1 = some ((edge 0).stop .halted, .halt .halted) := ⟨rfl, rfl⟩
theorem witness_RunReturnsTheOutcome_steps : (edge 0).hostStep = ((edge 0).stop .halted, .halt .halted) ∧
    (edge 65535).hostStep = ((edge 65535).raise ⟨.fetchOutOfBounds, 65535⟩, .fault .fetchOutOfBounds) ∧
    lastNot.hostStep = (lastNot.afterStep, .continues) ∧ inWaits.hostStep = ({ inWaits with stepPending := true }, .waiting) := ⟨rfl, rfl, rfl, rfl⟩
theorem witness_LoadWritesLittleEndianWords : State.reset.mem.wf = true ∧ ([0x01, 0x80, 0x04] : List Byte).length / 2 ≤ 32768 ∧
    ([0x01, 0x80, 0x04] : List Byte)[2 * 0]? = some 0x01 ∧ ([0x01, 0x80, 0x04] : List Byte)[2 * 0 + 1]? = some 0x80 ∧
    ([0x01, 0x80, 0x04] : List Byte).length % 2 = 1 := by decide
theorem witness_LoadFrame : State.reset.mem.wf = true ∧ (List.replicate 65536 (0 : Byte)).length / 2 ≤ 32768 ∧
    32768 < (List.replicate 65538 (0 : Byte)).length / 2 ∧ (List.replicate 65536 (0 : Byte)).length / 2 ≤ 32768 := by
  simp only [List.length_replicate]
  decide
theorem witness_FaultsOfEachInstruction : (stacked 0 [1, 2] 2).status = .running ∧
    exec (.push (.lit 3)) (stacked 0 [1, 2] 2) = .next ((stacked 0 [1, 2] 2).raise ⟨.stackOverflow, 0⟩) ∧
    ((stacked 0 [1, 2] 2).raise ⟨.stackOverflow, 0⟩).status = .faulted ∧
    ((stacked 0 [1, 2] 2).raise ⟨.stackOverflow, 0⟩).faultCause = .stackOverflow := ⟨rfl, rfl, rfl, rfl⟩

end Sys2Proof.Tests
end

/-! ### The registers an instruction writes (10_state.md, R33) -/

namespace Sys2Proof

/-- The formats with a destination slot are FD, FDV and FDVV (R92); the opcode map gives them to these twelve (R96). -/
theorem Opcode.destination_mem_kinds_iff (o : Opcode) : SlotKind.destination ∈ o.format.kinds ↔
    o ∈ [Opcode.set, .pop, .eq, .gt, .add, .mult, .mod, .and, .or, .not, .rmem, .inp] := by
  cases o <;> decide

/-- The slots of an instruction have the kinds of its format: no kind is lost for want of an operand. -/
theorem Instr.slots_map_fst (i : Instr) : i.slots.map Prod.fst = i.opcode.format.kinds :=
  List.map_fst_zip i.operands_length.ge

theorem Instr.exists_mem_slots_iff (i : Instr) (k : SlotKind) :
    (∃ o, (k, o) ∈ i.slots) ↔ k ∈ i.opcode.format.kinds := by
  simp [← i.slots_map_fst]

namespace Machine

/-- What a completion leaves in the register file: all of it, or all but the register of the destination slot. -/
theorem completes_regs {i : Instr} {s t : State} (h : Completes s t i) :
    t.regs = s.regs ∨ ∃ d v, destinationOf i = some d ∧ t.regs = s.regs.set d v := by
  obtain ⟨_, -, rfl⟩ | ⟨_, rfl⟩ | ⟨d, v, _, hd, rfl⟩ | ⟨d, v, _, _, -, hd, -, rfl⟩ | ⟨d, b, _, _, -, hd, -, rfl⟩ |
    ⟨_, _, -, -, -, rfl⟩ | ⟨_, _, -, -, rfl⟩ | ⟨_, _, _, _, -, -, -, rfl⟩ | ⟨_, _, -, rfl⟩ := completes_cases h
  exacts [.inl rfl, .inl rfl, .inr ⟨d, v, hd, rfl⟩, .inr ⟨d, v, hd, rfl⟩, .inr ⟨d, b.setWidth 16, hd, rfl⟩,
    .inl rfl, .inl rfl, .inl rfl, .inl rfl]

/-- What executing an instruction leaves in the register file: a fault and a wait leave all of it. -/
theorem exec_regs {i : Instr} {s t : State} (h : exec i s = .next t) :
    t.regs = s.regs ∨ ∃ d v, destinationOf i = some d ∧ t.regs = s.regs.set d v := by
  obtain ⟨f, -, he⟩ | ⟨f, -, he⟩ | ⟨-, he⟩ | ⟨u, hu, he⟩ := exec_cases i s <;> cases he.symm.trans h
  · exact .inl (s.raise_regs f)
  · exact .inl (s.raise_regs f)
  · exact .inl rfl
  · exact completes_regs hu

end Machine

end Sys2Proof

section
open Sys2Proof Sys2Proof.Machine

/-- Settles O24: the slot list follows from the formats, the frames from `exec_regs`. A register that keeps its content, as
after a fault, counts as written with that content. -/
theorem onlyDestinationRegisterWritten : Obligations.OnlyDestinationRegisterWritten := by
  refine ⟨fun i => (i.exists_mem_slots_iff _).trans i.opcode.destination_mem_kinds_iff, fun i s t h => ?_⟩
  obtain hsame | ⟨d, v, hd, hset⟩ := exec_regs h
  · exact ⟨fun d _ => ⟨s.regs[d], by simp [hsame]⟩, fun _ => hsame, fun r _ => by rw [hsame]⟩
  · simp only [hd, hset, ne_eq, Option.some.injEq, reduceCtorEq, false_imp_iff, true_and]
    refine ⟨fun _ h => ⟨v, by rw [h]⟩, fun r hr => ?_⟩
    exact Vector.getElem_set_ne _ _ (Fin.val_ne_of_ne hr)

end

/-! ### Operand words, the opcode map and lengths (30_encoding.md) -/

namespace Sys2Proof

/-! R94's classes by value: the decoder's answer in each range of an operand word. -/

theorem Operand.ofWord_of_lt_regBase {w : Word} (h : w.toNat < 32768) : Operand.ofWord w = .lit (w.setWidth 15) :=
  if_pos h

theorem Operand.ofWord_of_reg_range {w : Word} (hlo : 32768 ≤ w.toNat) (hhi : w.toNat ≤ 32775) :
    Operand.ofWord w = .reg (Fin.ofNat 8 w.toNat) :=
  (if_neg (Nat.not_lt.mpr hlo)).trans (if_pos (Nat.lt_succ_of_le hhi))

theorem Operand.ofWord_of_invalidBase_le {w : Word} (h : 32776 ≤ w.toNat) : Operand.ofWord w = .invalid w :=
  (if_neg (Nat.not_lt.mpr (Nat.le_trans (by decide) h))).trans (if_neg (Nat.not_lt.mpr h))

/-! R94's classes by bits: each field test of an operand word as a bound on its value. -/

theorem Word.bit15_clear_iff (w : Word) : w.getLsbD 15 = false ↔ w.toNat ≤ 32767 := by
  have hmsb : w.getLsbD 15 = w.msb := w.msb_eq_getLsbD_last.symm
  rw [hmsb, BitVec.msb_eq_false_iff_two_mul_lt]
  omega

theorem Word.bit15_set_iff (w : Word) : w.getLsbD 15 = true ↔ 32768 ≤ w.toNat := by
  rw [← Bool.not_eq_false, w.bit15_clear_iff]
  omega

theorem Word.bits15to3_eq_regTag_iff (w : Word) :
    w.extractLsb 15 3 = 0b1000000000000#13 ↔ 32768 ≤ w.toNat ∧ w.toNat ≤ 32775 := by
  rw [← BitVec.toNat_inj, BitVec.extractLsb_toNat, Nat.shiftRight_eq_div_pow]
  simp only [BitVec.toNat_ofNat]
  omega

theorem Word.bits14to3_eq_zero_iff (w : Word) : w.extractLsb 14 3 = 0#12 ↔ w.toNat % 32768 < 8 := by
  rw [← BitVec.toNat_inj, BitVec.extractLsb_toNat, Nat.shiftRight_eq_div_pow]
  simp only [BitVec.toNat_ofNat]
  omega

theorem Word.bits2to0_toNat (w : Word) : (w.extractLsb 2 0).toNat = w.toNat % 8 := by
  rw [BitVec.extractLsb_toNat, Nat.shiftRight_zero]

/-- The row of the opcode map (R96) that the model's tables give an opcode: number, mnemonic, format, operand kinds and
length. -/
def Opcode.mapRow (o : Opcode) : Nat × String × Format × List SlotKind × Nat :=
  (o.word.toNat, o.mnemonic, o.format, o.format.kinds, 1 + o.format.kinds.length)

/-- The number of an opcode's row selects that opcode. -/
theorem Opcode.ofWord_mapRow (o : Opcode) : Opcode.ofWord (BitVec.ofNat 16 o.mapRow.1) = some o := by
  simp [Opcode.mapRow, Opcode.ofWord_word]

/-- In any list of opcodes' rows, the number of each row selects an opcode that has the row's other columns. -/
theorem Opcode.exists_of_mem_mapRows (os : List Opcode) : ∀ row ∈ os.map Opcode.mapRow,
    ∃ o, Opcode.ofWord (BitVec.ofNat 16 row.1) = some o ∧ o.mnemonic = row.2.1 ∧ o.format = row.2.2.1 ∧
      o.format.kinds = row.2.2.2.1 ∧ 1 + o.format.kinds.length = row.2.2.2.2 :=
  List.forall_mem_map.mpr fun o _ => ⟨o, o.ofWord_mapRow, rfl, rfl, rfl, rfl⟩

/-- An encoding has the opcode word and one word per operand (R91). -/
theorem encode_length (i : Instr) : (encode i).length = 1 + i.operands.length := by
  simp [encode, Nat.add_comm]

end Sys2Proof

section
open Sys2Proof Sys2Proof.Machine

/-- Settles O3: each field test is a bound on the word's value, and each range of values has one class. -/
theorem operandWordClasses : Obligations.OperandWordClasses := by
  refine fun w => ⟨w.bit15_clear_iff, fun h => ?literal, w.bits15to3_eq_regTag_iff, fun hlo hhi => ?register, ?invalidBits,
    fun h => ?invalid⟩
  case literal =>
    refine ⟨_, Operand.ofWord_of_lt_regBase (Nat.lt_succ_of_le h), ?_⟩
    rw [BitVec.toNat_setWidth, Nat.mod_eq_of_lt (Nat.lt_succ_of_le h)]
  case register =>
    refine ⟨_, Operand.ofWord_of_reg_range hlo hhi, w.bits2to0_toNat.symm, ?_⟩
    rw [Fin.val_ofNat]
    omega
  case invalidBits =>
    rw [w.bit15_set_iff, ne_eq, w.bits14to3_eq_zero_iff]
    omega
  case invalid =>
    rw [Operand.ofWord_of_invalidBase_le h]
    exact ⟨rfl, fun _ _ => id, fun _ => rfl, rfl⟩

/-- Settles O4: the table of R96 lists the rows of the 22 opcodes in the order of their numbers. -/
theorem opcodeMapRows : Obligations.OpcodeMapRows :=
  ⟨Opcode.exists_of_mem_mapRows [.halt, .set, .push, .pop, .eq, .gt, .jmp, .jt, .jf, .add, .mult, .mod],
    Opcode.exists_of_mem_mapRows [.and, .or, .not, .rmem, .wmem, .call, .ret, .out, .inp, .noop],
    fun w => (Opcode.ofWord_eq_none_iff w).mpr⟩

/-- Settles O5: an encoding has one word more than operands, and an instruction's constructor fixes how many it has. -/
theorem instructionLengths : Obligations.InstructionLengths := by
  refine fun i => ⟨encode_length i, ?_⟩
  rw [encode_length]
  cases i <;> rfl

end

/-! ### The next pc (40_cycle.md, R134) -/

namespace Sys2Proof.Machine

/-- Advancing past words that lie in memory does not wrap: pc ends at most at 32768 (R135). -/
theorem State.advance_pc_toNat {s : State} {n : Nat} (h : WordsInMemory s n) :
    (s.advance n).pc.toNat = s.pc.toNat + n := by
  rw [State.advance_pc, BitVec.toNat_add, BitVec.toNat_ofNat]
  omega

theorem isNonzero_of_ne_zero {x : Word} (h : x ≠ 0) : isNonzero x = true :=
  decide_eq_true h

/-- A RUNNING core that an instruction leaves as it is waits on the host: an operand fault would have stopped it. -/
theorem State.waitsOn_of_waits {i : Instr} {s : State} (hr : s.status = .running) (hw : Waits s i)
    (h : exec i s = .next s) : s.waitsOn i = true := by
  have hnofault (f : FaultReport) : exec i s ≠ .next (s.raise f) := fun hf => by
    have hst : s.status = .faulted := congrArg State.status (Host.Outcome.next.inj (h.symm.trans hf))
    cases hr.symm.trans hst
  rw [State.waitsOn_iff]
  cases i with
  | out a =>
    obtain ⟨x, -, hm, hx⟩ | ⟨f, hf, -⟩ := s.resolveV_cases a
    · exact ⟨hm, .inl ⟨a, x, rfl, hx, hw⟩⟩
    · exact absurd (by rw [exec, execOut, hf, State.proceed_error]) (hnofault f)
  | inp a =>
    obtain ⟨d, -, hm, hd⟩ | ⟨f, hf, -⟩ := s.resolveD_cases a
    · exact ⟨hm, .inr ⟨a, d, rfl, hd, hw⟩⟩
    · exact absurd (by rw [exec, execIn, hf, State.proceed_error]) (hnofault f)
  | _ => exact hw.elim

/-- An instruction that neither waits nor stops the core completes by its rule. -/
theorem completes_of_exec_running {i : Instr} {s t : State} (hr : s.status = .running) (hw : s.waitsOn i = false)
    (h : exec i s = .next t) (ht : t.status = .running) : Completes s t i := by
  obtain ⟨f, -, he⟩ | ⟨f, -, he⟩ | ⟨hwait, he⟩ | ⟨u, hu, he⟩ := exec_cases i s <;> cases h.symm.trans he
  · cases ht
  · cases ht
  · cases hw.symm.trans (State.waitsOn_of_waits hr hwait he)
  · exact hu

end Sys2Proof.Machine

section
open Sys2Proof Sys2Proof.Machine

/-- Settles O29: an instruction that does not stop the core completes by its rule, which either jumps or advances past words
that lie in memory. -/
theorem nextPcOfEachInstruction : Obligations.NextPcOfEachInstruction := by
  intro i s t hpc hr hw he ht
  have hc : Completes s t i := completes_of_exec_running hr hw he ht
  cases i with
  | halt =>
    cases hc
    cases ht
  | noop =>
    cases hc
    exact State.advance_pc_toNat hpc
  | jmp a =>
    obtain ⟨-, x, hx, rfl⟩ := hc
    exact hx
  | call a =>
    obtain ⟨-, x, hx, -, rfl⟩ := hc
    exact hx
  | ret =>
    obtain ⟨-, rfl⟩ | ⟨rest, v, hs, rfl⟩ := hc
    · cases ht
    · exact ⟨rest, hs⟩
  | jt a b =>
    obtain ⟨hm, x, y, hx, hy, rfl⟩ := hc
    refine ⟨fun h0 => ?_, fun x' hx' hne => ?_⟩
    · cases hx.unique h0
      exact State.advance_pc_toNat hm
    · cases hx.unique hx'
      rwa [if_pos (isNonzero_of_ne_zero hne)]
  | jf a b =>
    obtain ⟨hm, x, y, hx, hy, rfl⟩ := hc
    refine ⟨fun h0 => ?_, fun x' hx' hne => ?_⟩
    · cases hx.unique h0
      exact hy
    · cases hx.unique hx'
      rw [if_pos (isNonzero_of_ne_zero hne)]
      exact State.advance_pc_toNat hm
  | set a b | not a b =>
    obtain ⟨hm, _, _, -, -, rfl⟩ := hc
    exact State.advance_pc_toNat hm
  | push a | out a =>
    obtain ⟨hm, _, -, -, rfl⟩ := hc
    exact State.advance_pc_toNat hm
  | pop a | inp a =>
    obtain ⟨hm, _, _, _, -, -, rfl⟩ := hc
    exact State.advance_pc_toNat hm
  | rmem a b | wmem a b =>
    obtain ⟨hm, _, _, -, -, -, rfl⟩ := hc
    exact State.advance_pc_toNat hm
  | eq a b c | gt a b c | add a b c | mult a b c | and a b c | or a b c =>
    obtain ⟨hm, _, _, _, -, -, -, rfl⟩ := hc
    exact State.advance_pc_toNat hm
  | mod a b c =>
    obtain ⟨hm, _, _, _, -, -, -, -, rfl⟩ := hc
    exact State.advance_pc_toNat hm

end

/-! ### NOOP and the end of memory (41_halt_noop.md, R151) -/

namespace Sys2Proof.Machine

/-- What NOOP gives its meaning: it advances past its one word from every state. -/
theorem exec_noop (s : State) : exec .noop s = .next (s.advance 1) := rfl

/-- A RUNNING core whose pc lies past the end of memory faults on its fetch (R121). -/
theorem step_of_memWords_le_pc {s : State} (hr : s.status = .running) (hpc : 32768 ≤ s.pc.toNat) :
    step s = .next (s.raise ⟨.fetchOutOfBounds, s.pc⟩) := by
  obtain ⟨f, hf, hstep⟩ | ⟨i, rest, -, hlt, -⟩ := step_cases s hr
  · have hfetch : s.fetchInstr = .error ⟨.fetchOutOfBounds, s.pc⟩ := by
      rw [State.fetchInstr, (Memory.read_eq_none_iff s.mem s.pc.toNat).mpr hpc]
    cases hf.symm.trans hfetch
    exact hstep
  · omega

end Sys2Proof.Machine

section
open Sys2Proof Sys2Proof.Machine

/-- Settles O31: NOOP advances from every state by `exec_noop`, and from 32767 to a pc that has no fetch. -/
theorem noopAdvancesPc : Obligations.NoopAdvancesPc := by
  refine ⟨rfl, exec_noop, fun s hpc hr => ⟨s.advance 1, exec_noop s, ?_⟩⟩
  have hend : (s.advance 1).pc = 32768 := by rw [State.advance_pc, hpc]; rfl
  have hfault := step_of_memWords_le_pc (s := s.advance 1) hr (by rw [hend]; decide)
  exact ⟨hend, hend ▸ hfault⟩

end

/-! ### Resolving the operands (40_cycle.md, R125 and R137) -/

namespace Sys2Proof.Machine

/-- The first operand fault is one fault: the order of R137 leaves no choice. -/
theorem FirstOperandFault.unique {s : State} {k : Nat} {slots : List (SlotKind × Operand)} {f g : FaultReport}
    (hf : FirstOperandFault s k slots f) (hg : FirstOperandFault s k slots g) : f = g := by
  induction slots generalizing k with
  | nil => exact absurd hf (FirstOperandFault.not_nil s k f)
  | cons slot rest ih =>
    obtain hf | ⟨hfn, hf⟩ := hf.cons_cases <;> obtain hg | ⟨hgn, hg⟩ := hg.cons_cases
    · exact Option.some.inj (hf.symm.trans hg)
    · cases hf.symm.trans hgn
    · cases hfn.symm.trans hg
    · exact ih hf hg

/-- Slots that lie in memory and meet an operand fault do not all resolve. -/
theorem FirstOperandFault.not_resolves {s : State} {k : Nat} {slots : List (SlotKind × Operand)} {f : FaultReport}
    (hf : FirstOperandFault s k slots f) (hm : s.pc.toNat + k + slots.length ≤ 32768) :
    ¬ ∀ slot ∈ slots, SlotResolves s slot := by
  intro hall
  induction slots generalizing k with
  | nil => exact FirstOperandFault.not_nil s k f hf
  | cons slot rest ih =>
    obtain ⟨hslot, hrest⟩ := List.forall_mem_cons.mp hall
    rw [List.length_cons] at hm
    obtain hfault | ⟨-, hlater⟩ := hf.cons_cases
    · cases hfault.symm.trans ((s.slotFault_none_iff k slot).mpr ⟨by omega, hslot⟩)
    · exact ih hlater (by omega) hrest

/-! Each format answers the first operand fault of its slots, or what they denote. -/

theorem State.resolveV_eq_error {s : State} {a : Operand} {f : FaultReport}
    (hf : FirstOperandFault s 1 [(.value, a)] f) : s.resolveV a = .error f := by
  obtain ⟨x, -, hm, hx⟩ | ⟨g, hr, hg⟩ := s.resolveV_cases a
  · exact absurd (List.forall_mem_singleton.mpr ⟨x, hx⟩) (hf.not_resolves hm)
  · rw [hr, hg.unique hf]

theorem State.resolveD_eq_error {s : State} {a : Operand} {f : FaultReport}
    (hf : FirstOperandFault s 1 [(.destination, a)] f) : s.resolveD a = .error f := by
  obtain ⟨d, -, hm, hd⟩ | ⟨g, hr, hg⟩ := s.resolveD_cases a
  · exact absurd (List.forall_mem_singleton.mpr ⟨d, hd⟩) (hf.not_resolves hm)
  · rw [hr, hg.unique hf]

theorem State.resolveVV_eq_error {s : State} {a b : Operand} {f : FaultReport}
    (hf : FirstOperandFault s 1 [(.value, a), (.value, b)] f) : s.resolveVV a b = .error f := by
  obtain ⟨x, y, -, hm, hx, hy⟩ | ⟨g, hr, hg⟩ := s.resolveVV_cases a b
  · exact absurd (List.forall_mem_cons.mpr ⟨⟨x, hx⟩, List.forall_mem_singleton.mpr ⟨y, hy⟩⟩) (hf.not_resolves hm)
  · rw [hr, hg.unique hf]

theorem State.resolveDV_eq_error {s : State} {a b : Operand} {f : FaultReport}
    (hf : FirstOperandFault s 1 [(.destination, a), (.value, b)] f) : s.resolveDV a b = .error f := by
  obtain ⟨d, x, -, hm, hd, hx⟩ | ⟨g, hr, hg⟩ := s.resolveDV_cases a b
  · exact absurd (List.forall_mem_cons.mpr ⟨⟨d, hd⟩, List.forall_mem_singleton.mpr ⟨x, hx⟩⟩) (hf.not_resolves hm)
  · rw [hr, hg.unique hf]

theorem State.resolveDVV_eq_error {s : State} {a b c : Operand} {f : FaultReport}
    (hf : FirstOperandFault s 1 [(.destination, a), (.value, b), (.value, c)] f) : s.resolveDVV a b c = .error f := by
  obtain ⟨d, x, y, -, hm, hd, hx, hy⟩ | ⟨g, hr, hg⟩ := s.resolveDVV_cases a b c
  · refine absurd ?_ (hf.not_resolves hm)
    exact List.forall_mem_cons.mpr ⟨⟨d, hd⟩, List.forall_mem_cons.mpr ⟨⟨x, hx⟩, List.forall_mem_singleton.mpr ⟨y, hy⟩⟩⟩
  · rw [hr, hg.unique hf]

/-- Format FD answers the register its operand names, when its words lie in memory. -/
theorem State.resolveD_eq_ok {s : State} {a : Operand} {d : RegIndex} (hm : WordsInMemory s 2) (hd : DestOf a d) :
    s.resolveD a = .ok d :=
  (s.fetchDst_ok_iff 1 a d).mpr ⟨hm, hd⟩

/-- Format FDV answers the register and the value its operands denote, when its words lie in memory. -/
theorem State.resolveDV_eq_ok {s : State} {a b : Operand} {d : RegIndex} {x : Word} (hm : WordsInMemory s 3)
    (hd : DestOf a d) (hx : ValueOf s b x) : s.resolveDV a b = .ok (d, x) := by
  rw [State.resolveDV, (s.fetchDst_ok_iff 1 a d).mpr ⟨Nat.lt_of_succ_lt hm, hd⟩, (s.fetchVal_ok_iff 2 b x).mpr ⟨hm, hx⟩]
  rfl

/-- What `proceed` does with a phase that is known to have faulted. -/
theorem State.proceed_of_eq_error {α : Type} {s : State} {r : Resolved α} {f : FaultReport} (h : r = .error f)
    (k : α → Outcome) : s.proceed r k = .next (s.raise f) := by
  rw [h, State.proceed_error]

/-- Every instruction takes its resolution faults: its meaning begins with the resolution of its format. -/
theorem takesResolutionFaults (i : Instr) (s : State) : TakesResolutionFaults i s := by
  intro f hf
  cases i with
  | halt | noop | ret => exact absurd hf (FirstOperandFault.not_nil s 1 f)
  | push a | jmp a | call a | out a => exact State.proceed_of_eq_error (State.resolveV_eq_error hf) _
  | pop a | inp a => exact State.proceed_of_eq_error (State.resolveD_eq_error hf) _
  | jt a b | jf a b | wmem a b => exact State.proceed_of_eq_error (State.resolveVV_eq_error hf) _
  | set a b | not a b | rmem a b => exact State.proceed_of_eq_error (State.resolveDV_eq_error hf) _
  | eq a b c | gt a b c | add a b c | mult a b c | mod a b c | and a b c | or a b c =>
    exact State.proceed_of_eq_error (State.resolveDVV_eq_error hf) _

end Sys2Proof.Machine

/-! ### SET and POP (42_move_stack.md, R160 and R162) -/

namespace Sys2Proof.Machine

/-- SET completes: it writes the value and advances past its three words. -/
theorem exec_set {s : State} {a b : Operand} {d : RegIndex} {x : Word} (hm : WordsInMemory s 3) (hd : DestOf a d)
    (hx : ValueOf s b x) : exec (.set a b) s = .next ((s.writeReg d x).advance 3) := by
  rw [exec, execSet, State.resolveDV_eq_ok hm hd hx, State.proceed_ok]

/-- POP completes: it takes the top word off the stack, writes it and advances past its two words. -/
theorem exec_pop_of_stack_concat {s : State} {a : Operand} {d : RegIndex} {rest : List Word} {v : Word}
    (hm : WordsInMemory s 2) (hd : DestOf a d) (hs : s.stack = rest ++ [v]) :
    exec (.pop a) s = .next ((State.writeReg { s with stack := rest } d v).advance 2) := by
  have hpop : s.pop? = some (v, { s with stack := rest }) := (s.pop?_eq_some_iff _ v).mpr ⟨rest, hs, rfl⟩
  rw [exec, execPop, State.resolveD_eq_ok hm hd, State.proceed_ok, hpop]

/-- POP of an empty stack faults in its execute phase, once its destination has resolved. -/
theorem exec_pop_of_stack_nil {s : State} {a : Operand} {d : RegIndex} (hm : WordsInMemory s 2) (hd : DestOf a d)
    (hs : s.stack = []) : exec (.pop a) s = .next (s.raise ⟨.stackUnderflow, 0⟩) := by
  rw [exec, execPop, State.resolveD_eq_ok hm hd, State.proceed_ok, s.pop?_eq_none_iff.mpr hs]

end Sys2Proof.Machine

section
open Sys2Proof Sys2Proof.Machine

/-- Settles O32: the resolution faults by `takesResolutionFaults`, the completion by `exec_set`. -/
theorem setCopiesValue : Obligations.SetCopiesValue :=
  fun s a b => ⟨takesResolutionFaults (.set a b) s, fun _ _ hm hd hx => ⟨rfl, exec_set hm hd hx⟩⟩

/-- Settles O34: the resolution faults by `takesResolutionFaults`, then a stack with a top word and an empty one. -/
theorem popTakesTop : Obligations.PopTakesTop :=
  fun s a => ⟨takesResolutionFaults (.pop a) s, fun _ hm hd =>
    ⟨rfl, fun _ _ hs => exec_pop_of_stack_concat hm hd hs, fun hs => exec_pop_of_stack_nil hm hd hs⟩⟩

end

/-! ### JMP (44_control.md, R180) -/

namespace Sys2Proof.Machine

/-- Format FV answers the value its operand denotes, when its words lie in memory. -/
theorem State.resolveV_eq_ok {s : State} {a : Operand} {x : Word} (hm : WordsInMemory s 2) (hx : ValueOf s a x) :
    s.resolveV a = .ok x :=
  (s.fetchVal_ok_iff 1 a x).mpr ⟨hm, hx⟩

/-- JMP completes: it jumps to the value. -/
theorem exec_jmp {s : State} {a : Operand} {x : Word} (hm : WordsInMemory s 2) (hx : ValueOf s a x) :
    exec (.jmp a) s = .next (s.jump x) := by
  rw [exec, execJmp, State.resolveV_eq_ok hm hx, State.proceed_ok]

end Sys2Proof.Machine

section
open Sys2Proof Sys2Proof.Machine

/-- Settles O37: the resolution faults by `takesResolutionFaults`, the completion by `exec_jmp`, and a target past the end of
memory by the fault of its fetch, `step_of_memWords_le_pc`. -/
theorem jmpSetsPc : Obligations.JmpSetsPc :=
  fun s a => ⟨takesResolutionFaults (.jmp a) s, fun x hm hx =>
    ⟨rfl, exec_jmp hm hx, fun hpc hr => step_of_memWords_le_pc (s := s.jump x) hr hpc⟩⟩

end

/-! ### ADD, MULT, AND, OR and NOT (45_alu.md, R200 to R206) -/

namespace Sys2Proof.Machine

/-- Format FDVV answers the register and the two values its operands denote, when its words lie in memory. -/
theorem State.resolveDVV_eq_ok {s : State} {a b c : Operand} {d : RegIndex} {x y : Word} (hm : WordsInMemory s 4)
    (hd : DestOf a d) (hx : ValueOf s b x) (hy : ValueOf s c y) : s.resolveDVV a b c = .ok (d, x, y) := by
  have hm2 : WordsInMemory s 3 := Nat.le_of_succ_le hm
  rw [State.resolveDVV, (s.fetchDst_ok_iff 1 a d).mpr ⟨Nat.lt_of_succ_lt hm2, hd⟩,
    (s.fetchVal_ok_iff 2 b x).mpr ⟨hm2, hx⟩, (s.fetchVal_ok_iff 3 c y).mpr ⟨hm, hy⟩]
  rfl

/-! The results as numbers (R201, R202, R206). -/

/-- A number reduced modulo 32768 fits a word, so the word holds it exactly. -/
theorem ofNat_mod_modulus_toNat (n : Nat) : (BitVec.ofNat 16 (n % Config.modulus)).toNat = n % 32768 := by
  have hfits : n % 32768 < 2 ^ 16 := by omega
  exact (BitVec.toNat_ofNat _ 16).trans (Nat.mod_eq_of_lt hfits)

@[simp] theorem aluAdd_toNat (x y : Word) : (aluAdd x y).toNat = (x.toNat + y.toNat) % 32768 :=
  ofNat_mod_modulus_toNat (x.toNat + y.toNat)

@[simp] theorem aluMult_toNat (x y : Word) : (aluMult x y).toNat = x.toNat * y.toNat % 32768 :=
  ofNat_mod_modulus_toNat (x.toNat * y.toNat)

/-- Masking with 0x7FFF is reduction modulo 32768, so the 15-bit complement is a subtraction from 32767. -/
@[simp] theorem aluNot_toNat (x : Word) : (aluNot x).toNat = 32767 - x.toNat % 32768 := by
  have hmask : (aluNot x).toNat = (65535 - x.toNat) % 32768 := by
    rw [aluNot, BitVec.toNat_and, BitVec.toNat_not]
    exact Nat.and_two_pow_sub_one_eq_mod _ 15
  omega

/-- The 15-bit complement undoes itself on 15-bit values. -/
theorem aluNot_aluNot {x : Word} (hx : x.toNat ≤ 32767) : aluNot (aluNot x) = x := by
  rw [← BitVec.toNat_inj, aluNot_toNat, aluNot_toNat]
  omega

/-! Each instruction completes: it writes its result and advances past its words. -/

section
variable {s : State} {a b c : Operand} {d : RegIndex} {x y : Word}

theorem exec_add (hm : WordsInMemory s 4) (hd : DestOf a d) (hx : ValueOf s b x) (hy : ValueOf s c y) :
    exec (.add a b c) s = .next ((s.writeReg d (aluAdd x y)).advance 4) := by
  rw [exec, execAdd, State.resolveDVV_eq_ok hm hd hx hy, State.proceed_ok]

theorem exec_mult (hm : WordsInMemory s 4) (hd : DestOf a d) (hx : ValueOf s b x) (hy : ValueOf s c y) :
    exec (.mult a b c) s = .next ((s.writeReg d (aluMult x y)).advance 4) := by
  rw [exec, execMult, State.resolveDVV_eq_ok hm hd hx hy, State.proceed_ok]

theorem exec_and (hm : WordsInMemory s 4) (hd : DestOf a d) (hx : ValueOf s b x) (hy : ValueOf s c y) :
    exec (.and a b c) s = .next ((s.writeReg d (x &&& y)).advance 4) := by
  rw [exec, execAnd, State.resolveDVV_eq_ok hm hd hx hy, State.proceed_ok]

theorem exec_or (hm : WordsInMemory s 4) (hd : DestOf a d) (hx : ValueOf s b x) (hy : ValueOf s c y) :
    exec (.or a b c) s = .next ((s.writeReg d (x ||| y)).advance 4) := by
  rw [exec, execOr, State.resolveDVV_eq_ok hm hd hx hy, State.proceed_ok]

theorem exec_not (hm : WordsInMemory s 3) (hd : DestOf a d) (hx : ValueOf s b x) :
    exec (.not a b) s = .next ((s.writeReg d (aluNot x)).advance 3) := by
  rw [exec, execNot, State.resolveDV_eq_ok hm hd hx, State.proceed_ok]

end

end Sys2Proof.Machine

section
open Sys2Proof Sys2Proof.Machine

/-- Settles O42: the resolution faults by `takesResolutionFaults`, the completion by `exec_add`, and its result as a number
by `aluAdd_toNat`. -/
theorem addIsModulo32768 : Obligations.AddIsModulo32768 :=
  fun s a b c => ⟨takesResolutionFaults (.add a b c) s, fun _ x y hm hd hx hy =>
    ⟨rfl, aluAdd x y, aluAdd_toNat x y, exec_add hm hd hx hy⟩⟩

/-- Settles O43: the resolution faults by `takesResolutionFaults`, the completion by `exec_mult`, and its result as a number
by `aluMult_toNat`. -/
theorem multIsModulo32768 : Obligations.MultIsModulo32768 :=
  fun s a b c => ⟨takesResolutionFaults (.mult a b c) s, fun _ x y hm hd hx hy =>
    ⟨rfl, aluMult x y, aluMult_toNat x y, exec_mult hm hd hx hy⟩⟩

/-- Settles O45: the resolution faults by `takesResolutionFaults`, the completions by `exec_and` and `exec_or`. -/
theorem andOrAreUnmasked : Obligations.AndOrAreUnmasked :=
  fun s a b c => ⟨takesResolutionFaults (.and a b c) s, takesResolutionFaults (.or a b c) s, fun _ _ _ hm hd hx hy =>
    ⟨rfl, rfl, exec_and hm hd hx hy, exec_or hm hd hx hy⟩⟩

/-- Settles O46: the resolution faults by `takesResolutionFaults`, the completion by `exec_not`, its result as a number by
`aluNot_toNat` and the way back by `aluNot_aluNot`. -/
theorem notIsComplement15 : Obligations.NotIsComplement15 :=
  fun s a b => ⟨takesResolutionFaults (.not a b) s, fun _ x hm hd hx =>
    ⟨rfl, aluNot x, rfl, aluNot_toNat x, exec_not hm hd hx, aluNot_aluNot⟩⟩

end

/-! ### RMEM and WMEM (46_memory_ops.md, R221 and R222) -/

namespace Sys2Proof.Machine

/-! An access inside the address space, and a read after a write (R62, R71). -/

theorem Memory.read_of_lt (m : Memory) {a : Nat} (ha : a < 32768) : m.read a = some (m.peek a) :=
  if_pos ha

theorem Memory.write_of_lt (m : Memory) {a : Nat} (v : Word) (ha : a < 32768) : m.write a v = some (m.poke a v) :=
  if_pos ha

theorem Memory.read_poke_same {m : Memory} {a : Nat} (v : Word) (hw : m.wf = true) (ha : a < 32768) :
    (m.poke a v).read a = some v := by
  rw [Memory.read_of_lt _ ha, Memory.peek_poke m 0 a a v hw, if_pos rfl]

theorem Memory.read_poke_other {m : Memory} {a b : Nat} (v : Word) (hw : m.wf = true) (hb : b ≠ a) :
    (m.poke a v).read b = m.read b := by
  rw [Memory.read, Memory.read, Memory.peek_poke m 0 a b v hw, if_neg hb.symm]

/-- Format FVV answers the two values its operands denote, when its words lie in memory. -/
theorem State.resolveVV_eq_ok {s : State} {a b : Operand} {x y : Word} (hm : WordsInMemory s 3) (hx : ValueOf s a x)
    (hy : ValueOf s b y) : s.resolveVV a b = .ok (x, y) := by
  rw [State.resolveVV, (s.fetchVal_ok_iff 1 a x).mpr ⟨Nat.lt_of_succ_lt hm, hx⟩, (s.fetchVal_ok_iff 2 b y).mpr ⟨hm, hy⟩]
  rfl

/-! Once its operands have resolved, each of the two does what its memory access answers. -/

section
variable {s : State} {a b : Operand}

theorem exec_rmem_of_read_some {d : RegIndex} {addr w : Word} (hm : WordsInMemory s 3) (hd : DestOf a d)
    (hb : ValueOf s b addr) (hr : s.mem.read addr.toNat = some w) :
    exec (.rmem a b) s = .next ((s.writeReg d w).advance 3) := by
  simp only [exec, execRmem, State.resolveDV_eq_ok hm hd hb, State.proceed_ok, hr]

theorem exec_rmem_of_read_none {d : RegIndex} {addr : Word} (hm : WordsInMemory s 3) (hd : DestOf a d)
    (hb : ValueOf s b addr) (hr : s.mem.read addr.toNat = none) :
    exec (.rmem a b) s = .next (s.raise ⟨.dataOutOfBounds, addr⟩) := by
  simp only [exec, execRmem, State.resolveDV_eq_ok hm hd hb, State.proceed_ok, hr]

theorem exec_wmem_of_write_some {addr x : Word} {m : Memory} (hm : WordsInMemory s 3) (ha : ValueOf s a addr)
    (hb : ValueOf s b x) (hw : s.mem.write addr.toNat x = some m) :
    exec (.wmem a b) s = .next (State.advance { s with mem := m } 3) := by
  simp only [exec, execWmem, State.resolveVV_eq_ok hm ha hb, State.proceed_ok, hw]

theorem exec_wmem_of_write_none {addr x : Word} (hm : WordsInMemory s 3) (ha : ValueOf s a addr) (hb : ValueOf s b x)
    (hw : s.mem.write addr.toNat x = none) : exec (.wmem a b) s = .next (s.raise ⟨.dataOutOfBounds, addr⟩) := by
  simp only [exec, execWmem, State.resolveVV_eq_ok hm ha hb, State.proceed_ok, hw]

end

end Sys2Proof.Machine

section
open Sys2Proof Sys2Proof.Machine

/-- Settles O47: the resolution faults by `takesResolutionFaults`, then an address whose read answers and one past the end
of memory. -/
theorem rmemReadsMemory : Obligations.RmemReadsMemory := by
  refine fun s a b => ⟨takesResolutionFaults (.rmem a b) s, fun d addr hm hd hb =>
    ⟨rfl, fun hlt => ?inside, fun hle => ?outside⟩⟩
  case inside =>
    have hread := s.mem.read_of_lt hlt
    exact ⟨s.mem.peek addr.toNat, hread, exec_rmem_of_read_some hm hd hb hread⟩
  case outside => exact exec_rmem_of_read_none hm hd hb ((s.mem.read_eq_none_iff _).mpr hle)

/-- Settles O48: the resolution faults by `takesResolutionFaults`, then an address whose write answers, with what the memory
after it reads by `Memory.read_poke_same` and `Memory.read_poke_other`, and an address past the end of memory. -/
theorem wmemWritesMemory : Obligations.WmemWritesMemory := by
  refine fun s a b => ⟨takesResolutionFaults (.wmem a b) s, fun addr x hwf hm ha hb =>
    ⟨rfl, fun hlt => ?inside, fun hle => ?outside⟩⟩
  case inside =>
    exact ⟨s.mem.poke addr.toNat x, exec_wmem_of_write_some hm ha hb (s.mem.write_of_lt x hlt),
      Memory.read_poke_same x hwf hlt, fun _ => Memory.read_poke_other x hwf⟩
  case outside => exact exec_wmem_of_write_none hm ha hb ((s.mem.write_eq_none_iff _ x).mpr hle)

end

/-! ### The load request (70_reset_and_hazards.md, R285 and R286) -/

namespace Sys2Proof.Machine

/-- Two bytes fit one word, so the word of a pair is not reduced (R63). -/
theorem toNat_ofNat_bytePair (lo hi : Byte) :
    (BitVec.ofNat 16 (lo.toNat + 256 * hi.toNat)).toNat = lo.toNat + 256 * hi.toNat := by
  have hlo : lo.toNat < 256 := lo.isLt
  have hhi : hi.toNat < 256 := hi.isLt
  rw [BitVec.toNat_ofNat, Nat.mod_eq_of_lt (by omega)]

/-- After words were written from address `a` on, word `i` of them is read at `a + i`. -/
theorem Memory.read_pokeAll_of_getElem? {m : Memory} {ws : List Word} {a i : Nat} {w : Word} (hw : m.wf = true)
    (hi : ws[i]? = some w) (ha : a + i < 32768) : (m.pokeAll a ws).read (a + i) = some w := by
  obtain ⟨hlen, -⟩ := List.getElem?_eq_some_iff.mp hi
  rw [Memory.read_of_lt _ ha, Memory.peek_pokeAll ws m a (a + i) hw ha, if_pos (by omega), Nat.add_sub_cancel_left,
    List.getD_eq_getElem?_getD, hi, Option.getD_some]

/-- An image that fits is written from address 0 on (R285). -/
theorem State.load_of_fits (s : State) {bytes : List Byte} (hfit : bytes.length / 2 ≤ 32768) :
    s.load bytes = ({ s with mem := s.mem.pokeAll 0 (wordsOfBytes bytes) }, .ok) :=
  if_pos ((wordsOfBytes_length bytes).trans_le hfit)

/-- Load sees an image only through its words. -/
theorem State.load_congr (s : State) {bytes bytes' : List Byte} (h : wordsOfBytes bytes = wordsOfBytes bytes') :
    s.load bytes = s.load bytes' := by
  rw [State.load, State.load, h]

end Sys2Proof.Machine

section
open Sys2Proof Sys2Proof.Machine

/-- Settles O57: an image that fits is written by `State.load_of_fits`, where its word `i`, the pair `wordsOfBytes_getElem?`
gives, is read at address `i`; a last odd byte makes no word. -/
theorem loadWritesLittleEndianWords : Obligations.LoadWritesLittleEndianWords := by
  refine fun s bytes hwf hfit => ⟨fun i lo hi hlo hhi => ?word, fun hodd => ?oddByte⟩
  case word =>
    obtain ⟨hlast, -⟩ := List.getElem?_eq_some_iff.mp hhi
    have hread := Memory.read_pokeAll_of_getElem? (a := 0) hwf (wordsOfBytes_getElem? bytes i lo hi hlo hhi) (by omega)
    rw [Nat.zero_add] at hread
    exact ⟨_, toNat_ofNat_bytePair lo hi, by rw [s.load_of_fits hfit]; exact hread⟩
  case oddByte => exact s.load_congr (wordsOfBytes_dropLast bytes hodd).symm

end

/-! ### Decoding and encoding (30_encoding.md, sections 1 to 3) -/

namespace Sys2Proof

@[simp] theorem Opcode.opcode_instr (o : Opcode) (a b c : Operand) : (o.instr a b c).opcode = o := by
  cases o <;> rfl

/-- An opcode takes the first operands its format has. -/
theorem Opcode.operands_instr (o : Opcode) (a b c : Operand) :
    (o.instr a b c).operands = [a, b, c].take o.format.kinds.length := by
  cases o <;> rfl

/-- An instruction is its opcode with its operands. -/
theorem Instr.instr_operands (i : Instr) (x : Operand) :
    i.opcode.instr (i.operands.getD 0 x) (i.operands.getD 1 x) (i.operands.getD 2 x) = i := by
  cases i <;> rfl

theorem Instr.eq_of_opcode_operands {i j : Instr} (ho : i.opcode = j.opcode) (hs : i.operands = j.operands) : i = j := by
  rw [← i.instr_operands (.lit 0), ← j.instr_operands (.lit 0), ho, hs]

theorem Instr.wellFormed_iff (i : Instr) : i.WellFormed ↔ ∀ o ∈ i.operands, o.WellFormed := by
  cases i <;> simp [Instr.WellFormed, Instr.operands]

/-- The three operand words the decoder looks up are the first words after the opcode, as far as there are any. -/
theorem take_getD_eq_take (ws : List Word) {n : Nat} (hn : n ≤ 3) (hlen : n ≤ ws.length) :
    [ws.getD 0 0, ws.getD 1 0, ws.getD 2 0].take n = ws.take n := by
  refine List.ext_getElem (by simp; omega) fun k hk _ => ?_
  have hkn : k < n := by simp at hk; omega
  have hk3 : k = 0 ∨ k = 1 ∨ k = 2 := by omega
  rcases hk3 with rfl | rfl | rfl <;> simp <;> rw [List.getElem?_eq_getElem (by omega), Option.getD_some]

/-- Decoding said once: words decode to `i` exactly when they are its opcode word, then one word for each operand, each read
as that operand, then the rest (R90, R91, R97). -/
theorem decode_eq_ok_iff (ws rest : List Word) (i : Instr) : decode ws = .ok (i, rest) ↔ ∃ tail,
    ws = i.opcode.word :: tail ∧ i.operands.length ≤ tail.length ∧
      i.operands = (tail.take i.operands.length).map Operand.ofWord ∧ rest = tail.drop i.operands.length := by
  have hdecoded (o : Opcode) (tail : List Word) (hlen : o.format.kinds.length ≤ tail.length) :
      (o.instr (Operand.ofWord (tail.getD 0 0)) (Operand.ofWord (tail.getD 1 0)) (Operand.ofWord (tail.getD 2 0))).operands =
        (tail.take o.format.kinds.length).map Operand.ofWord := by
    rw [← take_getD_eq_take tail o.kinds_length hlen, List.map_take]
    exact o.operands_instr _ _ _
  constructor
  · intro h
    cases ws with
    | nil => cases h
    | cons w tail =>
      simp only [decode] at h
      cases ho : Opcode.ofWord w with
      | none => simp [ho] at h
      | some o =>
        simp only [ho] at h
        split at h
        · cases h
        · next hlen =>
          cases h
          rw [Instr.operands_length, Opcode.opcode_instr]
          exact ⟨tail, by rw [Opcode.word_of_ofWord w o ho], by omega, hdecoded o tail (by omega), rfl⟩
  · rintro ⟨tail, rfl, hlen, hops, rfl⟩
    rw [i.operands_length] at hlen hops ⊢
    simp only [decode, Opcode.ofWord_word]
    rw [if_neg (by omega), Instr.eq_of_opcode_operands (Opcode.opcode_instr _ _ _ _) ((hdecoded _ tail hlen).trans hops.symm)]

/-- The decoder reads only well-formed operands. -/
theorem wellFormed_of_decode {ws rest : List Word} {i : Instr} (h : decode ws = .ok (i, rest)) : i.WellFormed := by
  obtain ⟨tail, -, -, hops, -⟩ := (decode_eq_ok_iff _ _ _).mp h
  rw [i.wellFormed_iff, hops]
  exact List.forall_mem_map.mpr fun w _ => Operand.wellFormed_ofWord w

end Sys2Proof

section
open Sys2Proof Sys2Proof.Machine

/-- Settles O1: each operand word is read as the well-formed operand that it encodes. -/
theorem decodeOfEncodedInstruction : Obligations.DecodeOfEncodedInstruction := by
  intro i rest hwf
  have hread : (i.operands.map Operand.word).map Operand.ofWord = i.operands := by
    rw [List.map_map]
    exact (List.map_congr_left fun o ho => Operand.ofWord_word o (i.wellFormed_iff.mp hwf o ho)).trans (List.map_id _)
  refine (decode_eq_ok_iff _ _ _).mpr ⟨i.operands.map Operand.word ++ rest, rfl, by simp, ?_, ?_⟩
  · rw [List.take_left' (List.length_map _), hread]
  · rw [List.drop_left' (List.length_map _)]

/-- Settles O2: each operand is read from a word, so it is well-formed and its word is that word. -/
theorem encodeOfDecodedWords : Obligations.EncodeOfDecodedWords := by
  refine fun ws rest i h => ⟨wellFormed_of_decode h, ?_⟩
  obtain ⟨tail, rfl, -, hops, rfl⟩ := (decode_eq_ok_iff _ _ _).mp h
  have hwords : i.operands.map Operand.word = tail.take i.operands.length := by
    refine (congrArg (List.map Operand.word) hops).trans ?_
    rw [List.map_map, Function.comp_def, funext Operand.word_ofWord, List.map_id']
  rw [encode, hwords, List.cons_append, List.take_append_drop]

end

/-! ### The step: fetch, operand faults, outcomes (40_cycle.md, 60_exceptions.md) -/

namespace Sys2Proof.Machine

/-! What the fetch unit answers, and what a step makes of it (R120, R121, R122). -/

theorem State.fetchInstr_eq_ok_iff (s : State) (i : Instr) :
    s.fetchInstr = .ok i ↔ s.pc.toNat < 32768 ∧ ∃ rest, decode s.fetchWindow = .ok (i, rest) := by
  by_cases hpc : s.pc.toNat < 32768
  · rw [State.fetchInstr, Memory.read_of_lt _ hpc]
    cases decode s.fetchWindow <;> simp [hpc, Prod.ext_iff]
  · rw [State.fetchInstr, (Memory.read_eq_none_iff _ _).mpr (Nat.le_of_not_lt hpc)]
    simp [hpc]

theorem step_of_fetchInstr_ok {s : State} {i : Instr} (hr : s.status = .running) (hf : s.fetchInstr = .ok i) :
    step s = exec i s := by
  simp only [step, hr, hf, State.proceed_ok]

theorem step_of_fetchInstr_error {s : State} {f : FaultReport} (hr : s.status = .running)
    (hf : s.fetchInstr = .error f) : step s = .next (s.raise f) := by
  simp only [step, hr, hf, State.proceed_error]

/-- A step of a RUNNING core runs the instruction that its window decodes to. -/
theorem step_of_decode {s : State} {i : Instr} {rest : List Word} (hr : s.status = .running) (hpc : s.pc.toNat < 32768)
    (hd : decode s.fetchWindow = .ok (i, rest)) : step s = exec i s :=
  step_of_fetchInstr_ok hr ((s.fetchInstr_eq_ok_iff i).mpr ⟨hpc, rest, hd⟩)

/-- The word at pc is the opcode word of the decoded instruction. -/
theorem State.opcode_word_of_decode {s : State} {i : Instr} {rest : List Word}
    (hd : decode s.fetchWindow = .ok (i, rest)) : (s.mem.read s.pc.toNat).getD 0 = i.opcode.word := by
  obtain ⟨tail, hw, -⟩ := (decode_eq_ok_iff _ _ _).mp hd
  exact (List.cons.inj hw).1

/-- Operand `k` of the decoded instruction is read from the word at pc + k + 1. -/
theorem State.operand_of_decode {s : State} {i : Instr} {rest : List Word} (hd : decode s.fetchWindow = .ok (i, rest))
    {k : Nat} {o : Operand} (ho : i.operands[k]? = some o) :
    o = Operand.ofWord ((s.mem.read (s.pc.toNat + (k + 1))).getD 0) := by
  obtain ⟨tail, hw, -, hops, -⟩ := (decode_eq_ok_iff _ _ _).mp hd
  have htail : tail = (List.range 3).map fun k => (s.mem.read (s.pc.toNat + (k + 1))).getD 0 := (List.cons.inj hw).2.symm
  rw [hops, htail] at ho
  obtain ⟨_, rfl⟩ := List.getElem?_eq_some_iff.mp ho
  simp only [List.getElem_map, List.getElem_take, List.getElem_range]

/-- An illegal opcode word faults, whatever follows it (R98, R122). -/
theorem State.fetchInstr_of_illegal_opcode {s : State} {op : Word} (hop : s.mem.read s.pc.toNat = some op)
    (hill : 22 ≤ op.toNat) : s.fetchInstr = .error ⟨.invalidOpcode, op⟩ := by
  obtain ⟨hpc, -⟩ | ⟨op', hop', -, hf⟩ | ⟨i, rest, -, hd, -⟩ := s.fetchInstr_cases
  · rw [(Memory.read_eq_none_iff _ _).mpr hpc] at hop
    cases hop
  · cases hop.symm.trans hop'
    exact hf
  · have hw : op = i.opcode.word := by rw [← State.opcode_word_of_decode hd, hop, Option.getD_some]
    have hnone := (Opcode.ofWord_eq_none_iff op).mpr hill
    rw [hw, Opcode.ofWord_word] at hnone
    cases hnone

/-- When the words of a well-formed instruction that lie in memory stand at pc, the core decodes its opcode, with its
operands as far as they lie in memory. -/
theorem State.exists_decode_of_words {s : State} {i : Instr} (hwf : i.WellFormed) (hpc : s.pc.toNat < 32768)
    (hw : ∀ k w, (encode i)[k]? = some w → s.pc.toNat + k < 32768 → s.mem.read (s.pc.toNat + k) = some w) :
    ∃ j rest, decode s.fetchWindow = .ok (j, rest) ∧ j.opcode = i.opcode ∧
      ∀ k o, s.pc.toNat + (k + 1) < 32768 → i.operands[k]? = some o → j.operands[k]? = some o := by
  have hop : (s.mem.read s.pc.toNat).getD 0 = i.opcode.word := by
    have hread : s.mem.read s.pc.toNat = some i.opcode.word := hw 0 _ rfl hpc
    rw [hread, Option.getD_some]
  obtain ⟨j, rest, hd⟩ | ⟨-, hill⟩ := s.decode_fetchWindow
  · have hopcode : j.opcode = i.opcode := by
      have hword := (State.opcode_word_of_decode hd).symm.trans hop
      rw [← Option.some_inj, ← j.opcode.ofWord_word, hword, i.opcode.ofWord_word]
    refine ⟨j, rest, hd, hopcode, fun k o hk ho => ?_⟩
    have hklen : k < j.operands.length := by
      rw [j.operands_length, hopcode, ← i.operands_length]
      exact (List.getElem?_eq_some_iff.mp ho).1
    have hread := hw (k + 1) o.word (by simp [encode, ho]) hk
    have hj := State.operand_of_decode hd (List.getElem?_eq_getElem hklen)
    rw [hread, Option.getD_some, Operand.ofWord_word o (i.wellFormed_iff.mp hwf o (List.mem_of_getElem? ho))] at hj
    rw [List.getElem?_eq_getElem hklen, hj]
  · rw [hop, ← Opcode.ofWord_eq_none_iff, Opcode.ofWord_word] at hill
    cases hill

/-! Operand faults. -/

/-- The operand faults of slots depend only on the slots whose words lie in memory. -/
theorem FirstOperandFault.congr {s : State} {k : Nat} {slots slots' : List (SlotKind × Operand)} {f : FaultReport}
    (hf : FirstOperandFault s k slots f) (hlen : slots.length = slots'.length)
    (hsame : ∀ n slot, s.pc.toNat + k + n < 32768 → slots[n]? = some slot → slots'[n]? = some slot) :
    FirstOperandFault s k slots' f := by
  cases slots' with
  | nil => cases hf <;> cases hlen
  | cons slot' rest' =>
    induction hf generalizing slot' rest' with
    | fetch k slot rest h => exact .fetch k slot' rest' h
    | destination k o rest h ho =>
      cases hsame 0 _ h rfl
      exact .destination k o rest' h ho
    | operand k w rest h =>
      cases hsame 0 _ h rfl
      exact .operand k w rest' h
    | content k i rest h hc =>
      cases hsame 0 _ h rfl
      exact .content k i rest' h hc
    | later k slot rest f h hr hf ih =>
      cases hsame 0 _ h rfl
      refine .later k slot rest' f h hr ?_
      cases rest' with
      | nil => cases hf <;> cases hlen
      | cons slot'' rest'' =>
        refine ih slot'' rest'' (Nat.succ.inj hlen) fun n sl hn hsl => ?_
        exact hsame (n + 1) sl (by omega) hsl

/-- Operand slots that meet no fault lie in memory and resolve. -/
theorem exists_firstOperandFault_or_resolves (s : State) (slots : List (SlotKind × Operand)) (k : Nat) :
    (∃ f, FirstOperandFault s k slots f) ∨
      (slots ≠ [] → s.pc.toNat + k + slots.length ≤ 32768) ∧ ∀ slot ∈ slots, SlotResolves s slot := by
  induction slots generalizing k with
  | nil => exact .inr ⟨fun h => absurd rfl h, nofun⟩
  | cons slot rest ih =>
    cases hslot : s.slotFault k slot with
    | some f => exact .inl ⟨f, s.slotFault_some k slot rest f hslot⟩
    | none =>
      obtain ⟨hk, hres⟩ := (s.slotFault_none_iff k slot).mp hslot
      obtain ⟨f, hf⟩ | ⟨hm, hall⟩ := ih (k + 1)
      · exact .inl ⟨f, .later k slot rest f hk hres hf⟩
      · refine .inr ⟨fun _ => ?_, List.forall_mem_cons.mpr ⟨hres, hall⟩⟩
        cases rest with
        | nil => exact hk
        | cons slot' rest' =>
          have hend := hm (List.cons_ne_nil _ _)
          simp only [List.length_cons] at hend ⊢
          omega

/-- An operand fault reports a word that fits its cause (R241), when the operands are classified as the decoder does and no
operand's address is reduced. -/
theorem FirstOperandFault.infoFits {s : State} {k : Nat} {slots : List (SlotKind × Operand)} {f : FaultReport}
    (hf : FirstOperandFault s k slots f) (hfit : s.pc.toNat + k + slots.length ≤ 65536)
    (hwf : ∀ slot ∈ slots, slot.2.WellFormed) : InfoFits f.cause f.info := by
  induction hf with
  | fetch k slot rest h =>
    rw [List.length_cons] at hfit
    rw [InfoFits, BitVec.toNat_ofNat]
    omega
  | destination k o rest h ho =>
    cases o with
    | lit n => exact .inl (by simp [Operand.word]; omega)
    | reg i => exact absurd rfl (ho i)
    | invalid w => exact .inr (hwf _ List.mem_cons_self)
  | operand k w rest h => exact hwf _ List.mem_cons_self
  | content k i rest h hc => exact hc
  | later k slot rest f h hr hf ih =>
    rw [List.length_cons] at hfit
    exact ih (by omega) fun sl hsl => hwf sl (List.mem_cons_of_mem _ hsl)

/-- So does the fault of an execute phase. -/
theorem ExecuteFault.infoFits {s : State} {f : FaultReport} {i : Instr} (hf : ExecuteFault s f i) :
    InfoFits f.cause f.info := by
  cases i with
  | push a | call a | pop a | mod a b c =>
    obtain ⟨-, rfl⟩ := hf
    exact rfl
  | rmem a b | wmem a b =>
    obtain ⟨addr, -, haddr, rfl⟩ := hf
    exact haddr
  | inp a =>
    obtain ⟨-, -, rfl⟩ := hf
    exact rfl
  | _ => exact hf.elim

/-! What a step of a RUNNING core leaves. -/

/-- A step of a RUNNING core faults with a fitting report, waits and changes nothing, or completes its instruction. -/
theorem step_outcomes {s t : State} (hr : s.status = .running) (h : step s = .next t) :
    (∃ f, InfoFits f.cause f.info ∧ t = s.raise f) ∨
      ∃ i rest, s.pc.toNat < 32768 ∧ decode s.fetchWindow = .ok (i, rest) ∧ (Waits s i ∧ t = s ∨ Completes s t i) := by
  obtain ⟨hpc, hf⟩ | ⟨op, -, hop, hf⟩ | ⟨i, rest, hpc, hd, hf⟩ := s.fetchInstr_cases
  · cases h.symm.trans (step_of_fetchInstr_error hr hf)
    exact .inl ⟨_, hpc, rfl⟩
  · cases h.symm.trans (step_of_fetchInstr_error hr hf)
    exact .inl ⟨_, hop, rfl⟩
  · rw [step_of_fetchInstr_ok hr hf] at h
    obtain ⟨f, hf, he⟩ | ⟨f, hf, he⟩ | ⟨hw, he⟩ | ⟨u, hu, he⟩ := exec_cases i s <;> cases h.symm.trans he
    · refine .inl ⟨f, hf.infoFits ?_ fun slot hslot => ?_, rfl⟩
      · have hlen : i.slots.length ≤ 3 := by
          rw [← List.length_map Prod.fst, i.slots_map_fst]
          exact i.opcode.kinds_length
        omega
      · exact i.wellFormed_iff.mp (wellFormed_of_decode hd) _ (List.of_mem_zip hslot).2
    · exact .inl ⟨f, hf.infoFits, rfl⟩
    · exact .inr ⟨i, rest, hpc, hd, .inl ⟨hw, rfl⟩⟩
    · exact .inr ⟨i, rest, hpc, hd, .inr hu⟩

/-- A completion leaves the status registers, unless HALT or RET stops the core. -/
theorem completes_statusRegisters {i : Instr} {s t : State} (h : Completes s t i) :
    i = .halt ∧ t = s.stop .halted ∨ i = .ret ∧ s.stack = [] ∧ t = s.stop .retHalted ∨
      t.status = s.status ∧ t.faultCause = s.faultCause ∧ t.faultPc = s.faultPc ∧ t.faultInfo = s.faultInfo := by
  obtain ⟨_, ⟨rfl, rfl⟩ | ⟨rfl, hs, rfl⟩, rfl⟩ | hgoes := completes_cases h
  · exact .inl ⟨rfl, rfl⟩
  · exact .inr (.inl ⟨rfl, hs, rfl⟩)
  · right; right
    obtain ⟨_, rfl⟩ | ⟨_, _, _, -, rfl⟩ | ⟨_, _, _, _, -, -, -, rfl⟩ | ⟨_, _, _, _, -, -, -, rfl⟩ | ⟨_, _, -, -, -, rfl⟩ |
      ⟨_, _, -, -, rfl⟩ | ⟨_, _, _, _, -, -, -, rfl⟩ | ⟨_, _, -, rfl⟩ := hgoes <;> exact ⟨rfl, rfl, rfl, rfl⟩

/-- Executing an instruction always answers a next state. -/
theorem exec_answers_next (i : Instr) (s : State) : ∃ t, exec i s = .next t := by
  obtain ⟨f, -, h⟩ | ⟨f, -, h⟩ | ⟨-, h⟩ | ⟨t, -, h⟩ := exec_cases i s <;> exact ⟨_, h⟩

theorem step_answers_next (s : State) : ∃ t, step s = .next t := by
  by_cases hr : s.status = .running
  · obtain ⟨f, -, h⟩ | ⟨i, -, -, -, -, h⟩ := step_cases s hr
    · exact ⟨_, h⟩
    · exact h ▸ exec_answers_next i s
  · exact ⟨s, step_stopped s hr⟩

end Sys2Proof.Machine

section
open Sys2Proof Sys2Proof.Machine

/-- Settles O7: the words that decode are what the fetch unit answers. -/
theorem stepRunsDecodedInstruction : Obligations.StepRunsDecodedInstruction :=
  fun _ _ _ => step_of_decode

/-- Settles O8: with all its words in memory, the decoded instruction has all the operands of the encoded one. -/
theorem stepRunsEncodedInstruction : Obligations.StepRunsEncodedInstruction := by
  intro s i hr hwf hm hw
  have hlen : i.length = 1 + i.operands.length := by rw [i.operands_length, Instr.length]
  have hpc : s.pc.toNat < 32768 := by omega
  obtain ⟨j, rest, hd, hopcode, hops⟩ := State.exists_decode_of_words hwf hpc fun k w h _ => hw k w h
  have hjlen : j.operands.length = i.operands.length := by rw [j.operands_length, i.operands_length, hopcode]
  have hji : j = i := by
    refine Instr.eq_of_opcode_operands hopcode (List.ext_getElem hjlen fun k hk hk' => ?_)
    have hkj := hops k _ (by omega) (List.getElem?_eq_getElem hk')
    exact (List.getElem?_eq_some_iff.mp hkj).2
  exact step_of_decode hr hpc (hji ▸ hd)

/-- Settles O9: no word is fetched at 32768 and above, and no instruction has an opcode word of 22 or more. -/
theorem fetchAndOpcodeFaults : Obligations.FetchAndOpcodeFaults :=
  fun _ hr => ⟨step_of_memWords_le_pc hr,
    fun _ hop hill => step_of_fetchInstr_error hr (State.fetchInstr_of_illegal_opcode hop hill)⟩

/-- Settles O10: every meaning begins with the resolution of its format. -/
theorem firstOperandFaultIsTaken : Obligations.FirstOperandFaultIsTaken :=
  fun i s f hf => takesResolutionFaults i s f hf

/-- Settles O11: the decoded instruction has the same slots as far as they lie in memory, so it meets the same fault. -/
theorem firstOperandFaultStopsStep : Obligations.FirstOperandFaultStopsStep := by
  intro s i f hr hpc hwf hw hf
  obtain ⟨j, rest, hd, hopcode, hops⟩ := State.exists_decode_of_words hwf hpc hw
  rw [step_of_decode hr hpc hd]
  refine takesResolutionFaults j s f (hf.congr ?_ fun n slot hn hslot => ?_)
  · rw [← List.length_map Prod.fst, i.slots_map_fst, ← hopcode, ← j.slots_map_fst, List.length_map]
  · obtain ⟨hkind, ho⟩ := List.getElem?_zip_eq_some.mp hslot
    exact List.getElem?_zip_eq_some.mpr ⟨by rw [hopcode, hkind], hops n _ (by omega) ho⟩

/-- Settles O12: slots that do not fault resolve, slots that resolve do not fault, and the order of R137 fixes the fault. -/
theorem operandsResolveOrFaultOnce : Obligations.OperandsResolveOrFaultOnce := by
  refine fun s slots k => ⟨⟨fun ⟨f, hf⟩ ⟨hm, hall⟩ => ?_, fun hnot => ?_⟩, fun _ _ => FirstOperandFault.unique⟩
  · have hne : slots ≠ [] := by
      rintro rfl
      exact FirstOperandFault.not_nil s k f hf
    exact hf.not_resolves (hm hne) hall
  · exact (exists_firstOperandFault_or_resolves s slots k).resolve_right hnot

/-- Settles O13: taking a fault and the status read are these records, and the codes are the rows of their tables. -/
theorem faultRecordAndCodes : Obligations.FaultRecordAndCodes :=
  ⟨fun _ _ => rfl, rfl, rfl, fun _ => rfl⟩

/-- Settles O15: exec answers a next state in each of its four cases, and so does every step. -/
theorem stepAnswersNextState : Obligations.StepAnswersNextState :=
  step_answers_next

/-- Settles O16: of the outcomes of a step only the fault leaves a FAULTED core. -/
theorem faultIsPrecise : Obligations.FaultIsPrecise := by
  intro s t hr h ht
  obtain ⟨f, hinfo, rfl⟩ | ⟨i, rest, -, -, ⟨-, rfl⟩ | hc⟩ := step_outcomes hr h
  · exact ⟨rfl, hinfo⟩
  · cases hr.symm.trans ht
  · obtain ⟨-, rfl⟩ | ⟨-, -, rfl⟩ | ⟨hst, -⟩ := completes_statusRegisters hc
    · cases ht
    · cases ht
    · cases hr.symm.trans (hst.symm.trans ht)

/-- Settles O17: of the outcomes of a step only the completion of HALT, or of RET on an empty stack, stops the core
cleanly. -/
theorem cleanTerminationKeepsState : Obligations.CleanTerminationKeepsState := by
  intro s t hr h
  obtain ⟨f, -, rfl⟩ | ⟨i, rest, -, hd, ⟨-, rfl⟩ | hc⟩ := step_outcomes hr h
  · exact ⟨nofun, nofun⟩
  · simp [hr]
  · obtain ⟨rfl, rfl⟩ | ⟨rfl, hs, rfl⟩ | ⟨hst, -⟩ := completes_statusRegisters hc
    · exact ⟨fun _ => ⟨rfl, rest, hd⟩, nofun⟩
    · exact ⟨nofun, fun _ => ⟨rfl, hs, rest, hd⟩⟩
    · simp [hst, hr]

/-- Settles O18: a stopped core does not move, and the outcomes of a step other than a fault leave the fault record. -/
theorem faultRecordWrittenOnlyByFault : Obligations.FaultRecordWrittenOnlyByFault := by
  intro s t h hnot
  by_cases hr : s.status = .running
  · obtain ⟨f, -, rfl⟩ | ⟨i, rest, -, -, ⟨-, rfl⟩ | hc⟩ := step_outcomes hr h
    · exact absurd ⟨hr, rfl⟩ hnot
    · exact ⟨rfl, rfl, rfl⟩
    · obtain ⟨-, rfl⟩ | ⟨-, -, rfl⟩ | ⟨-, hrecord⟩ := completes_statusRegisters hc
      · exact ⟨rfl, rfl, rfl⟩
      · exact ⟨rfl, rfl, rfl⟩
      · exact hrecord
  · cases h.symm.trans (step_stopped s hr)
    exact ⟨rfl, rfl, rfl⟩

end

/-! ### The invariant of the machine (10_state.md, 60_exceptions.md) -/

namespace Sys2Proof.Machine

/-- The stack is full exactly when the capacity is finite and equals the depth (R9). -/
theorem State.stackFull_iff (s : State) : s.stackFull = true ↔ s.cfg.stackCapacity = .words s.stack.length := by
  unfold State.stackFull
  cases s.cfg.stackCapacity <;> simp [eq_comm]

theorem stackFits_iff (s : State) : StackFits s ↔ ∀ k, s.cfg.stackCapacity = .words k → s.stack.length ≤ k := by
  unfold StackFits
  cases s.cfg.stackCapacity <;> simp

/-- What a completion leaves in memory: all of it, or all but the word at WMEM's address. -/
theorem completes_mem {i : Instr} {s t : State} (h : Completes s t i) :
    t.mem = s.mem ∨ ∃ a b addr x, i = .wmem a b ∧ ValueOf s a addr ∧ addr.toNat < 32768 ∧
      t.mem = s.mem.poke addr.toNat x := by
  obtain ⟨_, -, rfl⟩ | ⟨_, rfl⟩ | ⟨_, _, _, -, rfl⟩ | ⟨_, _, _, _, -, -, -, rfl⟩ | ⟨_, _, _, _, -, -, -, rfl⟩ |
    ⟨_, _, -, -, -, rfl⟩ | ⟨_, _, -, -, rfl⟩ | ⟨a, b, addr, x, hi, ha, hlt, rfl⟩ | ⟨_, _, -, rfl⟩ := completes_cases h
  exacts [.inl rfl, .inl rfl, .inl rfl, .inl rfl, .inl rfl, .inl rfl, .inl rfl, .inr ⟨a, b, addr, x, hi, ha, hlt, rfl⟩,
    .inl rfl]

/-- What a completion does to the stack: nothing, or PUSH and CALL put a word of at most 32775 on top where there is room, or
POP and RET take the top word. -/
theorem completes_stack {i : Instr} {s t : State} (h : Completes s t i) :
    t.stack = s.stack ∨
    (∃ v : Word, (i.opcode = .push ∨ i.opcode = .call) ∧ s.stackFull = false ∧ v.toNat ≤ 32775 ∧ t.stack = s.stack ++ [v]) ∨
    ∃ v, (i.opcode = .pop ∨ i.opcode = .ret) ∧ s.stack = t.stack ++ [v] := by
  obtain ⟨_, -, rfl⟩ | ⟨_, rfl⟩ | ⟨_, _, _, -, rfl⟩ | ⟨_, v, _, rest, hi, -, hs, rfl⟩ | ⟨_, _, _, _, -, -, -, rfl⟩ |
    ⟨v, _, hi, hfull, hv, rfl⟩ | ⟨v, rest, rfl, hs, rfl⟩ | ⟨_, _, _, _, -, -, -, rfl⟩ | ⟨_, _, -, rfl⟩ := completes_cases h
  exacts [.inl rfl, .inl rfl, .inl rfl, .inr (.inr ⟨v, .inl hi, hs⟩), .inl rfl, .inr (.inl ⟨v, hi, hfull, hv, rfl⟩),
    .inr (.inr ⟨v, .inr rfl, hs⟩), .inl rfl, .inl rfl]

/-- What a completion does to the host's side of the state: the signals, the mark and the parameter stay; OUT sends one byte
and IN takes one. -/
theorem completes_ports {i : Instr} {s t : State} (h : Completes s t i) :
    (t.cfg = s.cfg ∧ t.hostInputEnded = s.hostInputEnded ∧ t.hostOutputReady = s.hostOutputReady ∧
      t.stepPending = s.stepPending) ∧
    (t.hostOutput = s.hostOutput ∨ i.opcode = .out ∧ ∃ b, t.hostOutput = s.hostOutput ++ [b]) ∧
    (t.hostInput = s.hostInput ∨ i.opcode = .inp ∧ ∃ b, s.hostInput = b :: t.hostInput) := by
  obtain ⟨_, -, rfl⟩ | ⟨_, rfl⟩ | ⟨_, _, _, -, rfl⟩ | ⟨_, _, _, _, -, -, -, rfl⟩ | ⟨_, b, _, _, hi, -, hin, rfl⟩ |
    ⟨_, _, -, -, -, rfl⟩ | ⟨_, _, -, -, rfl⟩ | ⟨_, _, _, _, -, -, -, rfl⟩ | ⟨b, _, hi, rfl⟩ := completes_cases h <;>
    refine ⟨⟨rfl, rfl, rfl, rfl⟩, ?_⟩
  exacts [⟨.inl rfl, .inl rfl⟩, ⟨.inl rfl, .inl rfl⟩, ⟨.inl rfl, .inl rfl⟩, ⟨.inl rfl, .inl rfl⟩,
    ⟨.inl rfl, .inr ⟨hi, b, hin⟩⟩, ⟨.inl rfl, .inl rfl⟩, ⟨.inl rfl, .inl rfl⟩, ⟨.inl rfl, .inl rfl⟩,
    ⟨.inr ⟨hi, b, rfl⟩, .inl rfl⟩]

/-- A RUNNING core agrees with its status registers exactly when they record no fault. -/
theorem recordAgrees_iff_of_running {s : State} (hr : s.status = .running) :
    RecordAgrees s ↔ s.faultCause = .none ∧ s.faultPc = 0 ∧ s.faultInfo = 0 := by
  simp only [RecordAgrees, hr]

theorem RecordAgrees.of_completes {i : Instr} {s t : State} (h : RecordAgrees s) (hr : s.status = .running)
    (hc : Completes s t i) : RecordAgrees t := by
  have hnone := (recordAgrees_iff_of_running hr).mp h
  obtain ⟨-, rfl⟩ | ⟨-, -, rfl⟩ | ⟨hst, hcause, hfpc, hinfo⟩ := completes_statusRegisters hc
  · exact hnone
  · exact hnone
  · rw [recordAgrees_iff_of_running (hst.trans hr), hcause, hfpc, hinfo]
    exact hnone

/-- A completion keeps the invariant of a RUNNING core. -/
theorem Inv.of_completes {i : Instr} {s t : State} (h : Inv s) (hr : s.status = .running) (hc : Completes s t i) : Inv t := by
  obtain ⟨hmem, hwords, hfits, hconfig, hrecord⟩ := h
  obtain ⟨⟨hcfg, -⟩, -⟩ := completes_ports hc
  rw [stackFits_iff] at hfits
  refine ⟨?memory, ?words, ?fits, hcfg ▸ hconfig, hrecord.of_completes hr hc⟩
  case memory =>
    obtain hm | ⟨a, b, addr, x, -, -, hlt, hm⟩ := completes_mem hc <;> rw [hm]
    · exact hmem
    · exact Memory.wf_poke _ _ x hmem hlt
  case words =>
    obtain hs | ⟨v, -, -, hv, hs⟩ | ⟨v, -, hs⟩ := completes_stack hc
    · rwa [hs]
    · rw [hs]
      exact List.forall_mem_append.mpr ⟨hwords, List.forall_mem_singleton.mpr hv⟩
    · rw [hs] at hwords
      exact (List.forall_mem_append.mp hwords).1
  case fits =>
    rw [stackFits_iff, hcfg]
    intro k hk
    have hle := hfits k hk
    obtain hs | ⟨v, -, hroom, -, hs⟩ | ⟨v, -, hs⟩ := completes_stack hc
    · rwa [hs]
    · have hne : s.stack.length ≠ k := by
        rintro rfl
        rw [s.stackFull_iff.mpr hk] at hroom
        cases hroom
      rw [hs, List.length_append, List.length_singleton]
      omega
    · rw [hs, List.length_append] at hle
      omega

/-- A fault whose report fits keeps the invariant. -/
theorem Inv.of_raise {s : State} {f : FaultReport} (h : Inv s) (hf : InfoFits f.cause f.info) : Inv (s.raise f) :=
  ⟨h.memory, h.stackWords, h.stackFits, h.config, rfl, hf⟩

theorem Inv.of_step {s t : State} (h : Inv s) (hstep : step s = .next t) : Inv t := by
  by_cases hr : s.status = .running
  · obtain ⟨f, hf, rfl⟩ | ⟨i, rest, -, -, ⟨-, rfl⟩ | hc⟩ := step_outcomes hr hstep
    · exact h.of_raise hf
    · exact h
    · exact h.of_completes hr hc
  · cases hstep.symm.trans (step_stopped s hr)
    exact h

/-! The host's requests. -/

/-- A request that is taken only between steps leaves the state as it is, or does what it does. -/
theorem State.betweenSteps_fst (s : State) (served : State × HostReply) :
    (s.betweenSteps served).1 = s ∨ (s.betweenSteps served).1 = served.1 := by
  unfold State.betweenSteps
  split
  · exact .inl rfl
  · exact .inr rfl

/-- An image that does not fit is rejected whole (R287). -/
theorem State.load_of_not_fits (s : State) {bytes : List Byte} (hbig : 32768 < bytes.length / 2) :
    s.load bytes = (s, .loadError) :=
  if_neg (by rw [wordsOfBytes_length]; exact Nat.not_le.mpr hbig)

/-- Load changes memory only: it writes the image's words, or nothing. -/
theorem State.load_fst (s : State) (bytes : List Byte) :
    (s.load bytes).1 = s ∨ (s.load bytes).1 = { s with mem := s.mem.pokeAll 0 (wordsOfBytes bytes) } := by
  by_cases hfit : bytes.length / 2 ≤ 32768
  · exact .inr (congrArg Prod.fst (s.load_of_fits hfit))
  · exact .inl (congrArg Prod.fst (s.load_of_not_fits (Nat.lt_of_not_le hfit)))

theorem Inv.of_hostStep {s : State} (h : Inv s) : Inv s.hostStep.1 := by
  by_cases hr : s.status = .running
  · obtain ⟨t, ht⟩ := step_answers_next s
    have hinv := h.of_step ht
    rw [State.hostStep_running hr ht]
    exact ⟨hinv.memory, hinv.stackWords, hinv.stackFits, hinv.config, hinv.record⟩
  · rwa [s.hostStep_stopped hr]

theorem Inv.of_load {s : State} (h : Inv s) (bytes : List Byte) : Inv (s.load bytes).1 := by
  obtain hs | hs := s.load_fst bytes <;> rw [hs]
  · exact h
  · exact ⟨Memory.wf_pokeAll _ _ 0 h.memory, h.stackWords, h.stackFits, h.config, h.record⟩

end Sys2Proof.Machine

section
open Sys2Proof Sys2Proof.Machine

/-- Settles O19: a fault writes a fitting record, and a completion keeps each part of the invariant. -/
theorem stepKeepsInvariant : Obligations.StepKeepsInvariant :=
  fun _ _ => Inv.of_step

/-- Settles O20: the step request by O19, load by the memory laws; the other requests write no part that the invariant
speaks of, but reset, whose values have it. -/
theorem hostRequestKeepsInvariant : Obligations.HostRequestKeepsInvariant := by
  intro s r h
  have hports (input : List Byte) (ended ready : Bool) :
      Inv { s with hostInput := input, hostInputEnded := ended, hostOutputReady := ready } :=
    ⟨h.memory, h.stackWords, h.stackFits, h.config, h.record⟩
  cases r with
  | reset =>
    obtain hs | hs := s.betweenSteps_fst (s.hostReset, .nothing) <;> rw [State.serve, hs]
    · exact h
    · exact ⟨rfl, nofun, (stackFits_iff _).mpr fun k _ => Nat.zero_le k, h.config, rfl, rfl, rfl⟩
  | load bytes =>
    obtain hs | hs := s.betweenSteps_fst ((s.load bytes).1, .loaded (s.load bytes).2) <;> rw [State.serve, hs]
    · exact h
    · exact h.of_load bytes
  | step => exact h.of_hostStep
  | readStatus =>
    obtain hs | hs := s.betweenSteps_fst (s, .status s.statusRead) <;> rw [State.serve, hs] <;> exact h
  | supplyInput bytes =>
    simp only [State.serve, State.supplyInput]
    split
    · exact h
    · exact hports _ _ _
  | endInput => exact hports _ _ _
  | setOutputReady ready => exact hports _ _ _

/-- Settles O21: at reset memory and the stack are empty and no fault is recorded. -/
theorem resetHasInvariant : Obligations.ResetHasInvariant :=
  ⟨rfl, nofun, trivial, trivial, rfl, rfl, rfl⟩

/-- Settles O22: a reset request gives the core's own state and the output record the values that they have in the reset
state. -/
theorem resetValues : Obligations.ResetValues := by
  rintro s r (rfl | rfl) <;>
    exact ⟨fun a ha => if_pos ha, fun i => Vector.getElem_replicate i.isLt, rfl, rfl, rfl, rfl, rfl, rfl, rfl⟩

/-- Settles O49: `Memory.peek_poke` as the reads that follow a write, and the bounds of both accesses. -/
theorem memoryReadAfterWrite : Obligations.MemoryReadAfterWrite :=
  fun m a v hw => ⟨fun ha => ⟨m.poke a v, m.write_of_lt v ha, m.wf_poke a v hw ha, Memory.read_poke_same v hw ha,
      fun _ => Memory.read_poke_other v hw⟩,
    fun ha => ⟨(m.read_eq_none_iff a).mpr ha, (m.write_eq_none_iff a v).mpr ha⟩⟩

end

/-! ### Frames: what instructions and host requests leave unchanged (R132, R268) -/

namespace Sys2Proof.Machine

/-- What executing an instruction does to the host's side of the state: a fault and a wait leave it. -/
theorem exec_ports {i : Instr} {s t : State} (h : exec i s = .next t) :
    (t.cfg = s.cfg ∧ t.hostInputEnded = s.hostInputEnded ∧ t.hostOutputReady = s.hostOutputReady ∧
      t.stepPending = s.stepPending) ∧
    (t.hostOutput = s.hostOutput ∨ i.opcode = .out ∧ ∃ b, t.hostOutput = s.hostOutput ++ [b]) ∧
    (t.hostInput = s.hostInput ∨ i.opcode = .inp ∧ ∃ b, s.hostInput = b :: t.hostInput) := by
  obtain ⟨f, -, he⟩ | ⟨f, -, he⟩ | ⟨-, he⟩ | ⟨u, hu, he⟩ := exec_cases i s <;> cases he.symm.trans h
  case inr.inr.inr => exact completes_ports hu
  all_goals exact ⟨⟨rfl, rfl, rfl, rfl⟩, .inl rfl, .inl rfl⟩

/-- A step leaves the end-of-input signal and takes at most the first of the bytes offered. -/
theorem step_input {s t : State} (h : step s = .next t) :
    t.hostInputEnded = s.hostInputEnded ∧ ∃ taken, s.hostInput = taken ++ t.hostInput := by
  by_cases hr : s.status = .running
  · obtain ⟨f, -, he⟩ | ⟨i, -, -, -, -, he⟩ := step_cases s hr
    · cases he.symm.trans h
      exact ⟨rfl, [], rfl⟩
    · obtain ⟨⟨-, hended, -⟩, -, hin | ⟨-, b, hin⟩⟩ := exec_ports (he.symm.trans h)
      · exact ⟨hended, [], hin.symm⟩
      · exact ⟨hended, [b], hin⟩
  · cases h.symm.trans (step_stopped s hr)
    exact ⟨rfl, [], rfl⟩

/-! The stack (R39, R41). -/

/-- What executing an instruction does to the stack: a fault and a wait leave it. -/
theorem exec_stack {i : Instr} {s t : State} (h : exec i s = .next t) :
    t.stack = s.stack ∨ (∃ v, (i.opcode = .push ∨ i.opcode = .call) ∧ t.stack = s.stack ++ [v]) ∨
      ∃ v, (i.opcode = .pop ∨ i.opcode = .ret) ∧ s.stack = t.stack ++ [v] := by
  obtain ⟨f, -, he⟩ | ⟨f, -, he⟩ | ⟨-, he⟩ | ⟨u, hu, he⟩ := exec_cases i s <;> cases he.symm.trans h
  case inr.inr.inr =>
    obtain hs | ⟨v, hi, -, -, hs⟩ | hpop := completes_stack hu
    · exact .inl hs
    · exact .inr (.inl ⟨v, hi, hs⟩)
    · exact .inr (.inr hpop)
  all_goals exact .inl rfl

/-- With another stack the operands resolve alike, so the two execute phases decide. -/
theorem State.proceed_withStack {α : Type} {s t : State} {st : List Word} {r : Resolved α} {k k' : α → Outcome}
    (hk : ∀ x u, k x = .next u → k' x = .next { u with stack := st }) (h : s.proceed r k = .next t) :
    State.proceed { s with stack := st } r k' = .next { t with stack := st } := by
  cases r with
  | ok x => exact hk x t h
  | error f =>
    cases h
    rfl

/-- An instruction other than PUSH, POP, CALL and RET does the same whatever the stack holds. -/
theorem exec_withStack {i : Instr} {s t : State} (hi : i.opcode ∉ [Opcode.push, .pop, .call, .ret])
    (h : exec i s = .next t) (st : List Word) : exec i { s with stack := st } = .next { t with stack := st } := by
  cases i with
  | push a | pop a | call a | ret => simp [Instr.opcode] at hi
  | halt | noop =>
    cases h
    rfl
  | set a b | not a b | jmp a | eq a b c | gt a b c | add a b c | mult a b c | and a b c | or a b c =>
    refine State.proceed_withStack (fun x u hu => ?_) h
    cases hu
    rfl
  | jt a b | jf a b | mod a b c | rmem a b | wmem a b =>
    refine State.proceed_withStack (fun x u hu => ?_) h
    revert hu
    dsimp only
    split <;> rintro ⟨⟩ <;> rfl
  | out a =>
    obtain ⟨_, _, _, _, _, _, _, _, _, _, _, ready, _, _⟩ := s
    refine State.proceed_withStack (fun x u hu => ?_) h
    cases ready <;> cases hu <;> rfl
  | inp a =>
    obtain ⟨_, _, _, _, _, _, _, _, _, input, ended, _, _, _⟩ := s
    refine State.proceed_withStack (fun x u hu => ?_) h
    cases input <;> cases ended <;> cases hu <;> rfl

/-! The status registers (R49). -/

/-- What the two states still share: all that an execute phase looks at. -/
theorem SameButStatus.shared {s t : State} (hs : SameButStatus s t) :
    t.mem = s.mem ∧ t.stack = s.stack ∧ t.stackFull = s.stackFull ∧ t.hostInput = s.hostInput ∧
      t.hostInputEnded = s.hostInputEnded ∧ t.outputWaits = s.outputWaits := by
  rw [hs]
  exact ⟨rfl, rfl, rfl, rfl, rfl, rfl⟩

theorem SameButStatus.of_proceed {α : Type} {s₁ s₂ t₁ t₂ : State} {r₁ r₂ : Resolved α} {k₁ k₂ : α → Outcome}
    (hs : SameButStatus s₁ s₂) (hr : r₂ = r₁)
    (hk : ∀ x u₁ u₂, k₁ x = .next u₁ → k₂ x = .next u₂ → SameButStatus u₁ u₂)
    (h₁ : s₁.proceed r₁ k₁ = .next t₁) (h₂ : s₂.proceed r₂ k₂ = .next t₂) : SameButStatus t₁ t₂ := by
  subst hr
  cases r₂ with
  | ok x => exact hk x t₁ t₂ h₁ h₂
  | error f =>
    cases h₁
    cases h₂
    rw [hs]
    rfl

/-- An instruction of two states that differ only in the status registers resolves, branches and writes alike. -/
theorem exec_sameButStatus {i : Instr} {s₁ s₂ t₁ t₂ : State} (hs : SameButStatus s₁ s₂) (h₁ : exec i s₁ = .next t₁)
    (h₂ : exec i s₂ = .next t₂) : SameButStatus t₁ t₂ := by
  obtain ⟨hmem, hstack, hfull, hinput, hended, hwaits⟩ := hs.shared
  cases i with
  | halt | noop =>
    cases h₁
    cases h₂
    rw [hs]
    rfl
  | set a b | not a b | jmp a | eq a b c | gt a b c | add a b c | mult a b c | and a b c | or a b c =>
    refine hs.of_proceed (by rw [hs]; rfl) (fun x u₁ u₂ hu₁ hu₂ => ?_) h₁ h₂
    cases hu₁
    cases hu₂
    rw [hs]
    rfl
  | jt a b | jf a b | mod a b c | rmem a b | wmem a b | push a | call a | out a =>
    refine hs.of_proceed (by rw [hs]; rfl) (fun x u₁ u₂ hu₁ hu₂ => ?_) h₁ h₂
    revert hu₁ hu₂
    simp only [hmem, hfull, hwaits]
    split <;> rintro ⟨⟩ ⟨⟩ <;> rw [hs] <;> rfl
  | inp a =>
    refine hs.of_proceed (by rw [hs]; rfl) (fun x u₁ u₂ hu₁ hu₂ => ?_) h₁ h₂
    simp only [State.inByte, hinput, hended] at hu₁ hu₂
    revert hu₁ hu₂
    cases s₁.hostInput <;> cases s₁.hostInputEnded <;> rintro ⟨⟩ ⟨⟩ <;> rw [hs] <;> rfl
  | pop a =>
    refine hs.of_proceed (by rw [hs]; rfl) (fun x u₁ u₂ hu₁ hu₂ => ?_) h₁ h₂
    simp only [State.pop?, hstack] at hu₁ hu₂
    revert hu₁ hu₂
    cases s₁.stack.getLast? <;> rintro ⟨⟩ ⟨⟩ <;> rw [hs] <;> rfl
  | ret =>
    simp only [exec, execRet, State.pop?, hstack] at h₁ h₂
    revert h₁ h₂
    cases s₁.stack.getLast? <;> rintro ⟨⟩ ⟨⟩ <;> rw [hs] <;> rfl

end Sys2Proof.Machine

namespace Sys2Proof.Machine

/-! The causes of the faults (R242). -/

/-- The causes of operand faults: the fetch of a slot, and for each kind of slot what can be wrong with its operand. -/
theorem FirstOperandFault.cause_cases {s : State} {k : Nat} {slots : List (SlotKind × Operand)} {f : FaultReport}
    (hf : FirstOperandFault s k slots f) :
    slots.map Prod.fst ≠ [] ∧ f.cause = .fetchOutOfBounds ∨
    .destination ∈ slots.map Prod.fst ∧ f.cause = .invalidDestination ∨
    .value ∈ slots.map Prod.fst ∧ (f.cause = .invalidOperand ∨ f.cause = .invalidRegisterValue) := by
  induction hf with
  | fetch => exact .inl ⟨List.cons_ne_nil _ _, rfl⟩
  | destination => exact .inr (.inl ⟨List.mem_cons_self, rfl⟩)
  | operand => exact .inr (.inr ⟨List.mem_cons_self, .inl rfl⟩)
  | content => exact .inr (.inr ⟨List.mem_cons_self, .inr rfl⟩)
  | later k slot rest f h hr hf ih =>
    obtain ⟨-, hc⟩ | ⟨hk, hc⟩ | ⟨hk, hc⟩ := ih
    · exact .inl ⟨List.cons_ne_nil _ _, hc⟩
    · exact .inr (.inl ⟨List.mem_cons_of_mem _ hk, hc⟩)
    · exact .inr (.inr ⟨List.mem_cons_of_mem _ hk, hc⟩)

/-- The fault table lists the operand faults of each slot kind of an instruction's format. -/
theorem operandFaults_mem_possibleFaults (i : Instr) :
    (i.opcode.format.kinds ≠ [] → .fetchOutOfBounds ∈ possibleFaults i) ∧
    (.destination ∈ i.opcode.format.kinds → .invalidDestination ∈ possibleFaults i) ∧
    (.value ∈ i.opcode.format.kinds → .invalidOperand ∈ possibleFaults i ∧ .invalidRegisterValue ∈ possibleFaults i) := by
  cases i <;> simp [possibleFaults, Instr.opcode, Opcode.format, Format.kinds]

theorem FirstOperandFault.cause_mem_possibleFaults {s : State} {k : Nat} {i : Instr} {f : FaultReport}
    (hf : FirstOperandFault s k i.slots f) : f.cause ∈ possibleFaults i := by
  obtain ⟨hfetch, hdest, hval⟩ := operandFaults_mem_possibleFaults i
  have hcause := hf.cause_cases
  rw [i.slots_map_fst] at hcause
  obtain ⟨hk, hc⟩ | ⟨hk, hc⟩ | ⟨hk, hc | hc⟩ := hcause <;> rw [hc]
  exacts [hfetch hk, hdest hk, (hval hk).1, (hval hk).2]

theorem FirstOperandFault.cause_ne_stackOverflow {s : State} {k : Nat} {slots : List (SlotKind × Operand)}
    {f : FaultReport} (hf : FirstOperandFault s k slots f) : f.cause ≠ .stackOverflow := by
  obtain ⟨-, hc⟩ | ⟨-, hc⟩ | ⟨-, hc | hc⟩ := hf.cause_cases <;> rw [hc] <;> decide

/-- The fault table lists the faults of the execute phases; only a full stack overflows. -/
theorem ExecuteFault.cause_mem_possibleFaults {s : State} {f : FaultReport} {i : Instr} (hf : ExecuteFault s f i) :
    f.cause ∈ possibleFaults i ∧ (f.cause = .stackOverflow → s.stackFull = true) := by
  cases i with
  | push a | call a =>
    obtain ⟨hfull, rfl⟩ := hf
    exact ⟨by simp [possibleFaults], fun _ => hfull⟩
  | pop a | mod a b c =>
    obtain ⟨-, rfl⟩ := hf
    exact ⟨by simp [possibleFaults], nofun⟩
  | rmem a b | wmem a b =>
    obtain ⟨addr, -, -, rfl⟩ := hf
    exact ⟨by simp [possibleFaults], nofun⟩
  | inp a =>
    obtain ⟨-, -, rfl⟩ := hf
    exact ⟨by simp [possibleFaults], nofun⟩
  | _ => exact hf.elim

/-! The host's requests (R268). -/

/-- Two states that differ at most in what the host does at the character ports: the input it offers and its signals. -/
def SameButPorts (s t : State) : Prop :=
  ∃ input ended ready, t = { s with hostInput := input, hostInputEnded := ended, hostOutputReady := ready }

theorem SameButPorts.refl (s : State) : SameButPorts s s := ⟨_, _, _, rfl⟩

/-- What a request other than step does: the port requests write their own fields; between steps, reset and load do what
they do; and anything else leaves the state. -/
theorem State.serve_cases (s : State) {r : HostRequest} (hstep : r ≠ .step) :
    SameButPorts s (s.serve r).1 ∨ s.midStep = false ∧
      (r = .reset ∧ (s.serve r).1 = s.hostReset ∨ ∃ bytes, r = .load bytes ∧ (s.serve r).1 = (s.load bytes).1) := by
  cases r with
  | step => exact absurd rfl hstep
  | reset =>
    cases hmid : s.midStep with
    | true => exact .inl (by rw [State.serve, s.betweenSteps_midStep _ hmid]; exact .refl s)
    | false => exact .inr ⟨rfl, .inl ⟨rfl, by rw [State.serve, s.betweenSteps_taken _ hmid]⟩⟩
  | load bytes =>
    cases hmid : s.midStep with
    | true => exact .inl (by rw [State.serve, s.betweenSteps_midStep _ hmid]; exact .refl s)
    | false => exact .inr ⟨rfl, .inr ⟨bytes, rfl, by rw [State.serve, s.betweenSteps_taken _ hmid]⟩⟩
  | readStatus =>
    obtain hs | hs := s.betweenSteps_fst (s, .status s.statusRead) <;> exact .inl (by rw [State.serve, hs]; exact .refl s)
  | supplyInput bytes =>
    left
    rw [State.serve, State.supplyInput]
    split <;> exact ⟨_, _, _, rfl⟩
  | endInput | setOutputReady ready => exact .inl ⟨_, _, _, rfl⟩

/-- Words written from address `a` on leave every address after them. -/
theorem Memory.read_pokeAll_of_le {m : Memory} {ws : List Word} {a b : Nat} (hw : m.wf = true) (hb : a + ws.length ≤ b) :
    (m.pokeAll a ws).read b = m.read b := by
  by_cases hlt : b < 32768
  · rw [Memory.read_of_lt _ hlt, Memory.read_of_lt _ hlt, Memory.peek_pokeAll ws m a b hw hlt, if_neg (by omega)]
  · rw [(Memory.read_eq_none_iff _ b).mpr (Nat.le_of_not_lt hlt), (m.read_eq_none_iff b).mpr (Nat.le_of_not_lt hlt)]

end Sys2Proof.Machine

section
open Sys2Proof Sys2Proof.Machine

/-- Settles O23: by `State.serve_cases` a request other than reset and step writes the ports' fields or memory, and neither
a step request nor such a request makes a stopped core RUNNING. -/
theorem hostRequestFrame : Obligations.HostRequestFrame := by
  intro s r
  have hframe (hreset : r ≠ .reset) (hstep : r ≠ .step) :
      (s.serve r).1.regs = s.regs ∧ (s.serve r).1.pc = s.pc ∧ (s.serve r).1.stack = s.stack ∧
      (s.serve r).1.status = s.status ∧ (s.serve r).1.faultCause = s.faultCause ∧ (s.serve r).1.faultPc = s.faultPc ∧
      (s.serve r).1.faultInfo = s.faultInfo ∧ (s.serve r).1.hostOutput = s.hostOutput ∧
      ((∀ bytes, r ≠ .load bytes) → (s.serve r).1.mem = s.mem) := by
    obtain ⟨_, _, _, he⟩ | ⟨-, ⟨hr, -⟩ | ⟨bytes, hr, he⟩⟩ := s.serve_cases hstep
    · rw [he]
      exact ⟨rfl, rfl, rfl, rfl, rfl, rfl, rfl, rfl, fun _ => rfl⟩
    · exact absurd hr hreset
    · obtain hs | hs := s.load_fst bytes <;> rw [he, hs] <;>
        exact ⟨rfl, rfl, rfl, rfl, rfl, rfl, rfl, rfl, fun hload => absurd hr (hload bytes)⟩
  refine ⟨hframe, fun hstopped => ⟨fun hrunning => ?_, ?_⟩⟩
  · by_contra hreset
    by_cases hstep : r = .step
    · rw [hstep, State.serve, s.hostStep_stopped hstopped] at hrunning
      exact hstopped hrunning
    · obtain ⟨-, -, -, hst, -⟩ := hframe hreset hstep
      exact hstopped (hst.symm.trans hrunning)
  · rintro rfl
    have hmid : s.midStep = false := by simp [State.midStep, hstopped]
    rw [State.serve, s.betweenSteps_taken _ hmid]
    rfl

/-- Settles O25: by `State.dataAccess_cases` memory changes only in a WMEM that completes, at the value of its first
operand. -/
theorem onlyWmemWritesMemory : Obligations.OnlyWmemWritesMemory := by
  intro i s t hwf h
  obtain ⟨-, hm, -⟩ | ⟨_, _, _, -, -, -, hm, -⟩ | ⟨a, b, addr, x, rfl, ha, -, -, hm, -⟩ := State.dataAccess_cases i s t h
  · simp [hm]
  · simp [hm]
  · refine ⟨fun hne => absurd rfl (hne a b), fun a' b' addr' hi ha' k hk => ?_⟩
    cases hi
    cases ha.unique ha'
    rw [hm, Memory.read_poke_other x hwf hk]

/-- Settles O26: independence of the stack by `exec_withStack`, its changes by `exec_stack`. -/
theorem onlyStackInstructionsUseStack : Obligations.OnlyStackInstructionsUseStack := by
  intro i s t h
  refine ⟨fun hi => ⟨?_, exec_withStack hi h⟩, ?_⟩
  · obtain hs | ⟨v, hpush | hpush, -⟩ | ⟨v, hpop | hpop, -⟩ := exec_stack h
    · exact hs
    all_goals simp [*] at hi
  · obtain hs | ⟨v, -, hs⟩ | ⟨v, -, hs⟩ := exec_stack h
    · exact .inl hs
    · exact .inr ⟨v, .inl hs⟩
    · exact .inr ⟨v, .inr hs⟩

/-- Settles O27, by `exec_ports`. -/
theorem onlyOutAndInUsePorts : Obligations.OnlyOutAndInUsePorts := by
  intro i s t h
  obtain ⟨⟨hcfg, hended, hready, hpending⟩, hout, hin⟩ := exec_ports h
  exact ⟨hcfg, hended, hready, hpending, hout, hin⟩

/-- Settles O28, by `exec_sameButStatus`. -/
theorem programCannotSeeStatusRegisters : Obligations.ProgramCannotSeeStatusRegisters :=
  fun _ _ _ _ _ => exec_sameButStatus

/-- Settles O55: a step takes bytes from the front, reset keeps the input record, and after the signal no bytes are added. -/
theorem endOfInputStands : Obligations.EndOfInputStands := by
  intro s r hended
  have hkept : s.hostInputEnded = true ∧ ∃ taken, s.hostInput = taken ++ s.hostInput := ⟨hended, [], rfl⟩
  cases r with
  | reset =>
    obtain hs | hs := s.betweenSteps_fst (s.hostReset, .nothing) <;> rw [State.serve, hs] <;> exact hkept
  | load bytes =>
    obtain hs | hs := s.betweenSteps_fst ((s.load bytes).1, .loaded (s.load bytes).2) <;> rw [State.serve, hs]
    · exact hkept
    · obtain hl | hl := s.load_fst bytes <;> rw [hl] <;> exact hkept
  | readStatus =>
    obtain hs | hs := s.betweenSteps_fst (s, .status s.statusRead) <;> rw [State.serve, hs] <;> exact hkept
  | step =>
    by_cases hr : s.status = .running
    · obtain ⟨t, ht⟩ := step_answers_next s
      rw [State.serve, State.hostStep_running hr ht]
      obtain ⟨hsame, htail⟩ := step_input ht
      exact ⟨hsame.trans hended, htail⟩
    · rw [State.serve, s.hostStep_stopped hr]
      exact hkept
  | supplyInput bytes =>
    rw [State.serve, State.supplyInput, if_pos hended]
    exact hkept
  | endInput => exact ⟨rfl, [], rfl⟩
  | setOutputReady ready => exact hkept

/-- Settles O58: an image that fits is written from address 0 on, and one that does not is rejected. -/
theorem loadFrame : Obligations.LoadFrame := by
  refine fun s bytes hwf => ⟨fun hfit => ?_, s.load_of_not_fits⟩
  rw [s.load_of_fits hfit]
  refine ⟨rfl, rfl, fun k hk => Memory.read_pokeAll_of_le hwf ?_⟩
  rwa [wordsOfBytes_length, Nat.zero_add]

/-- Settles O59: operand faults and the faults of execute phases stand in the table; a wait and a completion leave no
FAULTED core. -/
theorem faultsOfEachInstruction : Obligations.FaultsOfEachInstruction := by
  intro i s t hr h ht
  obtain ⟨f, hf, he⟩ | ⟨f, hf, he⟩ | ⟨-, he⟩ | ⟨u, hu, he⟩ := exec_cases i s <;> cases h.symm.trans he
  · exact ⟨hf.cause_mem_possibleFaults, fun hc => absurd hc hf.cause_ne_stackOverflow⟩
  · obtain ⟨hmem, hfull⟩ := hf.cause_mem_possibleFaults
    exact ⟨hmem, fun hc => ⟨_, s.stackFull_iff.mp (hfull hc)⟩⟩
  · cases hr.symm.trans ht
  · obtain ⟨-, rfl⟩ | ⟨-, -, rfl⟩ | ⟨hst, -⟩ := completes_statusRegisters hu
    · cases ht
    · cases ht
    · cases hr.symm.trans (hst.symm.trans ht)

end

/-! ### PUSH, CALL and RET (42_move_stack.md, 44_control.md) -/

namespace Sys2Proof.Machine

/-- There is room on the stack exactly when the capacity is not the depth. -/
theorem State.stackFull_eq_false_iff (s : State) :
    s.stackFull = false ↔ s.cfg.stackCapacity ≠ .words s.stack.length := by
  rw [← Bool.not_eq_true, s.stackFull_iff]

section
variable {s : State} {a : Operand} {x : Word}

theorem exec_push_of_room (hm : WordsInMemory s 2) (hx : ValueOf s a x)
    (hroom : s.cfg.stackCapacity ≠ .words s.stack.length) : exec (.push a) s = .next ((s.push x).advance 2) := by
  rw [exec, execPush, State.resolveV_eq_ok hm hx, State.proceed_ok, s.stackFull_eq_false_iff.mpr hroom,
    if_neg Bool.false_ne_true]

theorem exec_push_of_full (hm : WordsInMemory s 2) (hx : ValueOf s a x)
    (hfull : s.cfg.stackCapacity = .words s.stack.length) :
    exec (.push a) s = .next (s.raise ⟨.stackOverflow, 0⟩) := by
  rw [exec, execPush, State.resolveV_eq_ok hm hx, State.proceed_ok, if_pos (s.stackFull_iff.mpr hfull)]

theorem exec_call_of_room (hm : WordsInMemory s 2) (hx : ValueOf s a x)
    (hroom : s.cfg.stackCapacity ≠ .words s.stack.length) :
    exec (.call a) s = .next ((s.push (s.pc + 2)).jump x) := by
  rw [exec, execCall, State.resolveV_eq_ok hm hx, State.proceed_ok, s.stackFull_eq_false_iff.mpr hroom,
    if_neg Bool.false_ne_true]

theorem exec_call_of_full (hm : WordsInMemory s 2) (hx : ValueOf s a x)
    (hfull : s.cfg.stackCapacity = .words s.stack.length) :
    exec (.call a) s = .next (s.raise ⟨.stackOverflow, 0⟩) := by
  rw [exec, execCall, State.resolveV_eq_ok hm hx, State.proceed_ok, if_pos (s.stackFull_iff.mpr hfull)]

theorem exec_ret_of_stack_concat {rest : List Word} {v : Word} (hs : s.stack = rest ++ [v]) :
    exec .ret s = .next (State.jump { s with stack := rest } v) := by
  have hpop : s.pop? = some (v, { s with stack := rest }) := (s.pop?_eq_some_iff _ v).mpr ⟨rest, hs, rfl⟩
  rw [exec, execRet, hpop]

theorem exec_ret_of_stack_nil (hs : s.stack = []) : exec .ret s = .next (s.stop .retHalted) := by
  rw [exec, execRet, s.pop?_eq_none_iff.mpr hs]

end

end Sys2Proof.Machine

section
open Sys2Proof Sys2Proof.Machine

/-- Settles O33: the resolution faults by `takesResolutionFaults`, then a stack with room and a full one. -/
theorem pushGrowsStack : Obligations.PushGrowsStack :=
  fun s a => ⟨takesResolutionFaults (.push a) s, fun _ hm hx => ⟨rfl, exec_push_of_room hm hx, exec_push_of_full hm hx⟩⟩

/-- Settles O39: the resolution faults by `takesResolutionFaults`, then a stack with room and a full one; the return address
is not reduced, as the words lie in memory. -/
theorem callPushesReturnAddress : Obligations.CallPushesReturnAddress :=
  fun s a => ⟨takesResolutionFaults (.call a) s, fun _ hm hx =>
    ⟨rfl, fun hroom => ⟨exec_call_of_room hm hx hroom, State.advance_pc_toNat hm⟩, exec_call_of_full hm hx⟩⟩

/-- Settles O40: a stack with a top word, and an empty one. -/
theorem retPopsPc : Obligations.RetPopsPc :=
  ⟨rfl, fun _ => ⟨fun _ _ => exec_ret_of_stack_concat, exec_ret_of_stack_nil⟩⟩

/-- Settles O35: POP takes the word that PUSH put on top. -/
theorem popUndoesPush : Obligations.PopUndoesPush := by
  intro s a d x hm hx hroom
  have hm2 : WordsInMemory s 2 := by simp only [WordsInMemory] at hm ⊢; omega
  refine ⟨(s.push x).advance 2, exec_push_of_room hm2 hx hroom, ?_⟩
  have hpc : ((s.push x).advance 2).pc.toNat = s.pc.toNat + 2 := State.advance_pc_toNat (s := s.push x) hm2
  have hm' : WordsInMemory ((s.push x).advance 2) 2 := by simp only [WordsInMemory] at hm ⊢; omega
  have hend : s.pc + 2 + 2 = s.pc + 4 := BitVec.add_assoc s.pc 2 2
  rw [exec_pop_of_stack_concat hm' rfl rfl, ← hend]
  rfl

/-- Settles O41: RET takes the return address that CALL put on top. -/
theorem retReturnsAfterCall : Obligations.RetReturnsAfterCall :=
  fun _ _ _ hm hx hroom => ⟨_, exec_call_of_room hm hx hroom, rfl, exec_ret_of_stack_concat rfl⟩

end

/-! ### HALT, EQ, GT, JT, JF and MOD (41_halt_noop.md, 43_compare.md, 44_control.md, 45_alu.md) -/

namespace Sys2Proof.Machine

theorem truthWord_beq (x y : Word) : truthWord (x == y) = if x = y then 1 else 0 := by
  simp [truthWord]

theorem truthWord_decide (p : Prop) [Decidable p] : truthWord (decide p) = if p then 1 else 0 := by
  simp [truthWord]

@[simp] theorem aluMod_toNat (x y : Word) : (aluMod x y).toNat = x.toNat % y.toNat := by
  have hle : x.toNat % y.toNat ≤ x.toNat := Nat.mod_le _ _
  rw [aluMod, BitVec.toNat_ofNat, Nat.mod_eq_of_lt (by omega)]

section
variable {s : State} {a b c : Operand} {d : RegIndex} {x y : Word}

theorem exec_eq (hm : WordsInMemory s 4) (hd : DestOf a d) (hx : ValueOf s b x) (hy : ValueOf s c y) :
    exec (.eq a b c) s = .next ((s.writeReg d (if x = y then 1 else 0)).advance 4) := by
  simp only [exec, execEq, State.resolveDVV_eq_ok hm hd hx hy, State.proceed_ok, truthWord_beq]

theorem exec_gt (hm : WordsInMemory s 4) (hd : DestOf a d) (hx : ValueOf s b x) (hy : ValueOf s c y) :
    exec (.gt a b c) s = .next ((s.writeReg d (if y.toNat < x.toNat then 1 else 0)).advance 4) := by
  simp only [exec, execGt, State.resolveDVV_eq_ok hm hd hx hy, State.proceed_ok, truthWord_decide]

theorem exec_mod_of_ne_zero (hm : WordsInMemory s 4) (hd : DestOf a d) (hx : ValueOf s b x) (hy : ValueOf s c y)
    (h0 : y ≠ 0) : exec (.mod a b c) s = .next ((s.writeReg d (aluMod x y)).advance 4) := by
  simp only [exec, execMod, State.resolveDVV_eq_ok hm hd hx hy, State.proceed_ok, if_neg h0]

theorem exec_mod_of_eq_zero (hm : WordsInMemory s 4) (hd : DestOf a d) (hx : ValueOf s b x) (hy : ValueOf s c y)
    (h0 : y = 0) : exec (.mod a b c) s = .next (s.raise ⟨.divideByZero, 0⟩) := by
  simp only [exec, execMod, State.resolveDVV_eq_ok hm hd hx hy, State.proceed_ok, if_pos h0]

theorem exec_jt (hm : WordsInMemory s 3) (hx : ValueOf s a x) (hy : ValueOf s b y) :
    exec (.jt a b) s = .next (s.jump (if x ≠ 0 then y else s.pc + 3)) := by
  simp only [exec, execJt, State.resolveVV_eq_ok hm hx hy, State.proceed_ok]
  by_cases h0 : x = 0
  · subst h0
    rfl
  · rw [if_pos (isNonzero_of_ne_zero h0), if_pos h0]

theorem exec_jf (hm : WordsInMemory s 3) (hx : ValueOf s a x) (hy : ValueOf s b y) :
    exec (.jf a b) s = .next (s.jump (if x = 0 then y else s.pc + 3)) := by
  simp only [exec, execJf, State.resolveVV_eq_ok hm hx hy, State.proceed_ok]
  by_cases h0 : x = 0
  · subst h0
    rfl
  · rw [if_pos (isNonzero_of_ne_zero h0), if_neg h0]
    rfl

/-- An invalid second operand faults when the first one has resolved. -/
theorem firstOperandFault_second_invalid {w : Word} (hm : WordsInMemory s 3) (hx : ValueOf s a x) :
    FirstOperandFault s 1 [(.value, a), (.value, .invalid w)] ⟨.invalidOperand, w⟩ :=
  .later 1 _ _ _ (Nat.lt_of_succ_lt hm) ⟨x, hx⟩ (.operand 2 w [] hm)

end

end Sys2Proof.Machine

section
open Sys2Proof Sys2Proof.Machine

/-- Settles O6: the decoder run on the nine word sequences. -/
theorem specWordsDecode : Obligations.SpecWordsDecode :=
  ⟨rfl, rfl, rfl, rfl, rfl, rfl, rfl, rfl, rfl⟩

/-- Settles O30: HALT gives its meaning from every state. -/
theorem haltStopsCleanly : Obligations.HaltStopsCleanly :=
  ⟨rfl, fun _ => rfl⟩

/-- Settles O36: the resolution faults by `takesResolutionFaults`, the completions by `exec_eq` and `exec_gt`. -/
theorem comparisonsWriteTruth : Obligations.ComparisonsWriteTruth :=
  fun s a b c => ⟨takesResolutionFaults (.eq a b c) s, takesResolutionFaults (.gt a b c) s, fun _ _ _ hm hd hx hy =>
    ⟨rfl, rfl, exec_eq hm hd hx hy, exec_gt hm hd hx hy⟩⟩

/-- Settles O38: the resolution faults, an invalid target's among them, by `takesResolutionFaults`, the completions by
`exec_jt` and `exec_jf`. -/
theorem conditionalJumps : Obligations.ConditionalJumps := by
  refine fun s a b => ⟨takesResolutionFaults (.jt a b) s, takesResolutionFaults (.jf a b) s, fun x hm hx =>
    ⟨rfl, rfl, fun y hy => ⟨exec_jt hm hx hy, exec_jf hm hx hy⟩, ?_⟩⟩
  rintro w rfl
  have hfault := firstOperandFault_second_invalid (w := w) hm hx
  exact ⟨takesResolutionFaults (.jt a (.invalid w)) s _ hfault, takesResolutionFaults (.jf a (.invalid w)) s _ hfault⟩

/-- Settles O44: the resolution faults by `takesResolutionFaults`, then a divisor that is not zero, with the result as a
number by `aluMod_toNat`, and a zero one. -/
theorem modIsRemainder : Obligations.ModIsRemainder :=
  fun s a b c => ⟨takesResolutionFaults (.mod a b c) s, fun _ x y hm hd hx hy =>
    ⟨rfl, fun h0 => ⟨aluMod x y, aluMod_toNat x y, exec_mod_of_ne_zero hm hd hx hy h0⟩, exec_mod_of_eq_zero hm hd hx hy⟩⟩

end

/-! ### OUT and IN (47_io.md) -/

namespace Sys2Proof.Machine

section
variable {s : State} {a : Operand}

theorem exec_out_of_ready {x : Word} (hm : WordsInMemory s 2) (hx : ValueOf s a x) (hready : s.hostOutputReady = true) :
    exec (.out a) s = .next ((s.outByte (x.setWidth 8)).advance 2) := by
  rw [exec, execOut, State.resolveV_eq_ok hm hx, State.proceed_ok, State.outputWaits, hready]
  rfl

theorem exec_out_of_not_ready {x : Word} (hm : WordsInMemory s 2) (hx : ValueOf s a x)
    (hready : s.hostOutputReady = false) : exec (.out a) s = .next s := by
  rw [exec, execOut, State.resolveV_eq_ok hm hx, State.proceed_ok, State.outputWaits, hready]
  rfl

theorem exec_inp_of_byte {d : RegIndex} {b : Byte} {rest : List Byte} (hm : WordsInMemory s 2) (hd : DestOf a d)
    (hin : s.hostInput = b :: rest) :
    exec (.inp a) s = .next ((State.writeReg { s with hostInput := rest } d (b.setWidth 16)).advance 2) := by
  have hbyte : s.inByte = .byte b { s with hostInput := rest } := (s.inByte_byte_iff _ b).mpr ⟨rest, hin, rfl⟩
  rw [exec, execIn, State.resolveD_eq_ok hm hd, State.proceed_ok, hbyte]

theorem exec_inp_of_eof {d : RegIndex} (hm : WordsInMemory s 2) (hd : DestOf a d) (hin : s.hostInput = [])
    (hended : s.hostInputEnded = true) : exec (.inp a) s = .next (s.raise ⟨.inputEof, 0⟩) := by
  rw [exec, execIn, State.resolveD_eq_ok hm hd, State.proceed_ok, s.inByte_eof_iff.mpr ⟨hin, hended⟩]

theorem exec_inp_of_wait {d : RegIndex} (hm : WordsInMemory s 2) (hd : DestOf a d) (hin : s.hostInput = [])
    (hended : s.hostInputEnded = false) : exec (.inp a) s = .next s := by
  rw [exec, execIn, State.resolveD_eq_ok hm hd, State.proceed_ok, s.inByte_wait_iff.mpr ⟨hin, hended⟩]

end

end Sys2Proof.Machine

section
open Sys2Proof Sys2Proof.Machine

/-- Settles O52: the resolution faults by `takesResolutionFaults`, then a port that takes a byte and one that does not. -/
theorem outSendsLowByte : Obligations.OutSendsLowByte :=
  fun s a => ⟨takesResolutionFaults (.out a) s, fun x hm hx =>
    ⟨rfl, fun hready => ⟨x.setWidth 8, BitVec.toNat_setWidth 8 x, exec_out_of_ready hm hx hready⟩,
      exec_out_of_not_ready hm hx⟩⟩

/-- Settles O53: the resolution faults by `takesResolutionFaults`, then the three answers of the input port. -/
theorem inTakesByte : Obligations.InTakesByte := by
  refine fun s a => ⟨takesResolutionFaults (.inp a) s, fun d hm hd =>
    ⟨rfl, fun b rest hin => ⟨b.setWidth 16, ?_, exec_inp_of_byte hm hd hin⟩, exec_inp_of_eof hm hd, exec_inp_of_wait hm hd⟩⟩
  exact BitVec.toNat_setWidth_of_le (by decide)

end

/-! ### Waits and the step request (40_cycle.md, 47_io.md, 60_exceptions.md) -/

namespace Sys2Proof.Machine

/-- The next step waits exactly when the core is RUNNING and the words at pc are an OUT or IN whose operand resolves and that
the host does not answer (R232). -/
theorem State.waiting_iff_decode (s : State) : s.waiting = true ↔ s.status = .running ∧ WordsInMemory s 2 ∧
    ((∃ a rest x, decode s.fetchWindow = .ok (.out a, rest) ∧ ValueOf s a x ∧ s.hostOutputReady = false) ∨
      ∃ a rest d, decode s.fetchWindow = .ok (.inp a, rest) ∧ DestOf a d ∧ s.hostInput = [] ∧ s.hostInputEnded = false) := by
  rw [s.waiting_iff]
  refine and_congr_right fun _ => ⟨?_, ?_⟩
  · rintro ⟨i, hf, hw⟩
    obtain ⟨-, rest, hd⟩ := (s.fetchInstr_eq_ok_iff i).mp hf
    obtain ⟨hm, ⟨a, x, rfl, hx, hready⟩ | ⟨a, d, rfl, hdest, hin⟩⟩ := (s.waitsOn_iff i).mp hw
    · exact ⟨hm, .inl ⟨a, rest, x, hd, hx, hready⟩⟩
    · exact ⟨hm, .inr ⟨a, rest, d, hd, hdest, hin⟩⟩
  · rintro ⟨hm, hcase⟩
    have hpc : s.pc.toNat < 32768 := Nat.lt_of_succ_lt hm
    obtain ⟨a, rest, x, hd, hx, hready⟩ | ⟨a, rest, d, hd, hdest, hin⟩ := hcase
    · exact ⟨.out a, (s.fetchInstr_eq_ok_iff _).mpr ⟨hpc, rest, hd⟩,
        (s.waitsOn_iff _).mpr ⟨hm, .inl ⟨a, x, rfl, hx, hready⟩⟩⟩
    · exact ⟨.inp a, (s.fetchInstr_eq_ok_iff _).mpr ⟨hpc, rest, hd⟩,
        (s.waitsOn_iff _).mpr ⟨hm, .inr ⟨a, d, rfl, hdest, hin⟩⟩⟩

/-- A waiting step changes nothing (R139). -/
theorem step_of_waiting {s : State} (h : s.waiting = true) : step s = .next s := by
  obtain ⟨hr, hm, hcase⟩ := s.waiting_iff_decode.mp h
  have hpc : s.pc.toNat < 32768 := Nat.lt_of_succ_lt hm
  obtain ⟨a, rest, x, hd, hx, hready⟩ | ⟨a, rest, d, hd, hdest, hin, hended⟩ := hcase
  · rw [step_of_decode hr hpc hd, exec_out_of_not_ready hm hx hready]
  · rw [step_of_decode hr hpc hd, exec_inp_of_wait hm hdest hin hended]

/-! The report of a state, by its STATUS (R138). -/

theorem State.report_of_running {s : State} (h : s.status = .running) : s.report = .continues := by
  rw [State.report, h]

theorem State.report_of_halted {s : State} (h : s.status = .halted) : s.report = .halt .halted := by
  rw [State.report, h]

theorem State.report_of_retHalted {s : State} (h : s.status = .retHalted) : s.report = .halt .retHalted := by
  rw [State.report, h]

theorem State.report_of_faulted {s : State} (h : s.status = .faulted) : s.report = .fault s.faultCause := by
  rw [State.report, h]

/-- The reports that end a run (R266). -/
def StepReport.Ends (r : StepReport) : Prop :=
  (∃ why, r = .halt why) ∨ ∃ cause, r = .fault cause

/-- A core's outcome ends a run exactly when the core has stopped. -/
theorem State.report_ends_iff (s : State) : s.report.Ends ↔ s.status ≠ .running := by
  unfold State.report StepReport.Ends
  cases s.status <;> simp

/-! run (R266): it goes on after CONTINUE and after a wait, and returns at a halt or a fault. -/

theorem State.run_succ_of_halt {s t : State} {why : HaltReason} (h : s.hostStep = (t, .halt why)) (fuel : Nat) :
    s.run (fuel + 1) = some (t, .halt why) := by
  rw [State.run, h]

theorem State.run_succ_of_fault {s t : State} {cause : FaultCause} (h : s.hostStep = (t, .fault cause)) (fuel : Nat) :
    s.run (fuel + 1) = some (t, .fault cause) := by
  rw [State.run, h]

theorem State.run_succ_of_goesOn {s t : State} (h : s.hostStep = (t, .continues) ∨ s.hostStep = (t, .waiting))
    (fuel : Nat) : s.run (fuel + 1) = t.run fuel := by
  obtain h | h := h <;> rw [State.run, h]

theorem State.run_succ_of_ends {s t : State} {r : StepReport} (h : s.hostStep = (t, r)) (hr : r.Ends) (fuel : Nat) :
    s.run (fuel + 1) = some (t, r) := by
  obtain ⟨why, rfl⟩ | ⟨cause, rfl⟩ := hr
  · exact State.run_succ_of_halt h fuel
  · exact State.run_succ_of_fault h fuel

/-- run returns at once from a stopped core. -/
theorem State.run_succ_of_stopped {s : State} (h : s.status ≠ .running) (fuel : Nat) :
    s.run (fuel + 1) = some (s, s.report) :=
  State.run_succ_of_ends (s.hostStep_stopped h) (s.report_ends_iff.mpr h) fuel

/-- A step request either lets a run go on or ends it. -/
theorem State.hostStep_goesOn_or_ends (s : State) :
    (∃ t, s.hostStep = (t, .continues) ∨ s.hostStep = (t, .waiting)) ∨ ∃ t r, s.hostStep = (t, r) ∧ r.Ends := by
  rcases s.hostStep with ⟨t, _ | why | cause | _⟩
  · exact .inl ⟨t, .inl rfl⟩
  · exact .inr ⟨t, _, rfl, .inl ⟨why, rfl⟩⟩
  · exact .inr ⟨t, _, rfl, .inr ⟨cause, rfl⟩⟩
  · exact .inl ⟨t, .inr rfl⟩

/-- A step request whose report ends a run leaves a stopped core, and reports the outcome of its STATUS. -/
theorem State.hostStep_stops {s t : State} {r : StepReport} (h : s.hostStep = (t, r)) (hr : r.Ends) :
    t.status ≠ .running ∧ r = t.report := by
  suffices hreport : r = t.report by
    subst hreport
    exact ⟨t.report_ends_iff.mp hr, rfl⟩
  by_cases hrun : s.status = .running
  · obtain ⟨u, hu⟩ := step_answers_next s
    rw [State.hostStep_running hrun hu] at h
    obtain ⟨rfl, rfl⟩ := Prod.mk.inj h
    cases hw : s.waiting with
    | true => simp [hw, StepReport.Ends] at hr
    | false => rfl
  · rw [s.hostStep_stopped hrun] at h
    obtain ⟨rfl, rfl⟩ := Prod.mk.inj h
    rfl

/-- What run returns, and that more steps are not used: by induction on the steps. -/
theorem State.run_returns {fuel : Nat} {s t : State} {r : StepReport} (h : s.run fuel = some (t, r)) :
    t.status ≠ .running ∧ r = t.report ∧ ∀ more, s.run (fuel + more) = some (t, r) := by
  induction fuel generalizing s with
  | zero => cases h
  | succ fuel ih =>
    obtain ⟨u, hgoes⟩ | ⟨u, report, hstep, hends⟩ := s.hostStep_goesOn_or_ends
    · rw [State.run_succ_of_goesOn hgoes] at h
      obtain ⟨hstopped, hreport, hmore⟩ := ih h
      exact ⟨hstopped, hreport, fun more => by rw [Nat.add_right_comm, State.run_succ_of_goesOn hgoes, hmore]⟩
    · rw [State.run_succ_of_ends hstep hends] at h
      cases h
      obtain ⟨hstopped, hreport⟩ := State.hostStep_stops hstep hends
      exact ⟨hstopped, hreport, fun more => by rw [Nat.add_right_comm, State.run_succ_of_ends hstep hends]⟩

end Sys2Proof.Machine

section
open Sys2Proof Sys2Proof.Machine

/-- Settles O14: a stopped core by the lemmas of its step, its step request and its run; a RUNNING core's step request by
`State.hostStep_running`, with the wait of `State.waiting_iff_decode` and the report of the STATUS after the step. -/
theorem stoppedCoreStaysStopped : Obligations.StoppedCoreStaysStopped := by
  refine ⟨fun s h => ⟨step_stopped s h, s.hostStep_stopped h, State.run_succ_of_stopped h⟩, fun s t h => ?_⟩
  refine ⟨fun hr => by rw [State.hostStep_running hr h], s.waiting_iff_decode, fun hw => ?_, fun hw => ?_⟩
  · rw [State.hostStep_running (s.waiting_iff.mp hw).1 h, hw]
    rfl
  · have hreport : s.hostStep.2 = t.report := by
      by_cases hr : s.status = .running
      · rw [State.hostStep_running hr h, hw]
        rfl
      · cases h.symm.trans (step_stopped s hr)
        rw [s.hostStep_stopped hr]
    rw [hreport]
    exact ⟨State.report_of_running, State.report_of_halted, State.report_of_retHalted, State.report_of_faulted⟩

/-- Settles O54: a wait is an OUT that the port does not take or an IN with nothing offered; the host's two signals exclude
both. -/
theorem waitsOnlyOnHost : Obligations.WaitsOnlyOnHost := by
  refine fun s => ⟨fun hw => ⟨step_of_waiting hw, ?_⟩, ?_⟩
  · obtain ⟨-, -, ⟨a, rest, x, hd, -, hready⟩ | ⟨a, rest, d, hd, -, hin⟩⟩ := s.waiting_iff_decode.mp hw
    · exact .inl ⟨a, rest, hd, hready⟩
    · exact .inr ⟨a, rest, hd, hin⟩
  · rw [← Bool.not_eq_true, State.waiting_iff_decode]
    rintro ⟨-, -, ⟨_, _, _, -, -, hready⟩ | ⟨_, _, _, -, -, -, hended⟩⟩
    · cases hready
    · cases hended

/-- Settles O56: run unfolds by the report of the step request, and `State.run_returns` says what it returns. -/
theorem runReturnsTheOutcome : Obligations.RunReturnsTheOutcome :=
  ⟨fun _ => rfl, fun fuel _ _ => ⟨fun _ h => State.run_succ_of_halt h fuel, fun _ h => State.run_succ_of_fault h fuel,
    fun h => State.run_succ_of_goesOn h fuel⟩, fun _ _ _ _ => State.run_returns⟩

end

/-! ### The memory port (20_memory.md, R66 to R75) -/

namespace Sys2Proof.Machine

/-- An access that reads the word which memory holds. -/
def MemAccess.ReadsFrom (m : Memory) (x : MemAccess) : Prop :=
  ∃ a w, x = .read a w ∧ m.read a = some w

/-- The operand fetches read what memory holds. -/
theorem State.operandAccesses_readsFrom (s : State) (slots : List (SlotKind × Operand)) (k : Nat) :
    ∀ x ∈ s.operandAccesses k slots, x.ReadsFrom s.mem := by
  induction slots generalizing k with
  | nil => exact nofun
  | cons slot rest ih =>
    rw [State.operandAccesses]
    cases hread : s.mem.read (s.pc.toNat + k) with
    | none => exact nofun
    | some w =>
      refine List.forall_mem_cons.mpr ⟨⟨_, w, rfl, hread⟩, ?_⟩
      cases s.slotFault k slot with
      | none => exact ih (k + 1)
      | some f => exact nofun

/-- All the fetches of a step read what memory holds. -/
theorem State.fetchAccesses_readsFrom (s : State) : ∀ x ∈ s.fetchAccesses, x.ReadsFrom s.mem := by
  rw [State.fetchAccesses]
  cases hread : s.mem.read s.pc.toNat with
  | none => exact nofun
  | some op =>
    refine List.forall_mem_cons.mpr ⟨⟨_, op, rfl, hread⟩, ?_⟩
    cases s.fetchInstr with
    | error f => exact nofun
    | ok i => exact s.operandAccesses_readsFrom i.slots 1

/-- Reads leave memory. -/
theorem foldl_apply_of_readsFrom {m : Memory} {xs : List MemAccess} (h : ∀ x ∈ xs, x.ReadsFrom m) :
    xs.foldl MemAccess.apply m = m := by
  induction xs with
  | nil => rfl
  | cons x xs ih =>
    obtain ⟨⟨a, w, rfl, -⟩, hxs⟩ := List.forall_mem_cons.mp h
    exact ih hxs

/-- The accesses of an execute phase beside the memory after the step: none, one read or one write. -/
def ExecuteAccesses (s t : State) (data : List MemAccess) : Prop :=
  data = [] ∧ t.mem = s.mem ∨
  (∃ a, a < 32768 ∧ t.mem = s.mem ∧ t.status = s.status ∧ data = [.read a (s.mem.peek a)]) ∨
  ∃ a x, t.mem = s.mem.poke a x ∧ t.status = s.status ∧ data = [.write a x]

theorem State.dataAccess_executeAccesses {i : Instr} {s t : State} (h : exec i s = .next t) :
    ExecuteAccesses s t (s.dataAccess i) := by
  obtain ⟨hd, hm, -⟩ | ⟨_, _, addr, -, -, hlt, hm, hst, hd⟩ | ⟨_, _, addr, x, -, -, -, -, hm, hst, hd⟩ :=
    s.dataAccess_cases i t h
  · exact .inl ⟨hd, hm⟩
  · exact .inr (.inl ⟨_, hlt, hm, hst, hd⟩)
  · exact .inr (.inr ⟨_, x, hm, hst, hd⟩)

/-- A step that cannot fetch an instruction has no execute phase. -/
theorem State.executeAccesses_of_error {s : State} {f : FaultReport} (hf : s.fetchInstr = .error f) :
    s.executeAccesses = [] := by
  rw [State.executeAccesses, hf]

theorem State.executeAccesses_of_ok {s : State} {i : Instr} (hf : s.fetchInstr = .ok i) :
    s.executeAccesses = s.dataAccess i := by
  rw [State.executeAccesses, hf]

/-- The accesses of a step are fetches, which read what memory holds, and then those of its execute phase. -/
theorem State.stepAccesses_shape {s t : State} (h : step s = .next t) : ∃ fetches data,
    s.stepAccesses = fetches ++ data ∧ (∀ x ∈ fetches, x.ReadsFrom s.mem) ∧ ExecuteAccesses s t data := by
  by_cases hr : s.status = .running
  · refine ⟨_, s.executeAccesses, s.stepAccesses_running hr, fun x hx => ?_, ?_⟩
    · split at hx
      · cases hx
      · exact s.fetchAccesses_readsFrom x hx
    · obtain ⟨f, hf, he⟩ | ⟨i, rest, hf, -, -, he⟩ := step_cases s hr
      · cases h.symm.trans he
        exact .inl ⟨State.executeAccesses_of_error hf, rfl⟩
      · rw [State.executeAccesses_of_ok hf]
        exact State.dataAccess_executeAccesses (he.symm.trans h)
  · cases h.symm.trans (step_stopped s hr)
    exact ⟨[], [], s.stepAccesses_stopped hr, nofun, .inl ⟨rfl, rfl⟩⟩

section
variable {s t : State} {fetches data : List MemAccess}

theorem ExecuteAccesses.length_le (h : ExecuteAccesses s t data) : data.length ≤ 1 := by
  obtain ⟨rfl, -⟩ | ⟨_, -, -, -, rfl⟩ | ⟨_, _, -, -, rfl⟩ := h <;> simp

/-- Done in their order, the accesses of a step make the memory after it. -/
theorem foldl_apply_stepAccesses (hreads : ∀ x ∈ fetches, x.ReadsFrom s.mem) (h : ExecuteAccesses s t data) :
    t.mem = (fetches ++ data).foldl MemAccess.apply s.mem := by
  rw [List.foldl_append, foldl_apply_of_readsFrom hreads]
  obtain ⟨rfl, hm⟩ | ⟨_, -, hm, -, rfl⟩ | ⟨_, _, hm, -, rfl⟩ := h <;> exact hm

/-- Every read of a step gives the word memory held. -/
theorem read_eq_of_mem_stepAccesses (hreads : ∀ x ∈ fetches, x.ReadsFrom s.mem) (h : ExecuteAccesses s t data) {a : Nat}
    {w : Word} (hmem : MemAccess.read a w ∈ fetches ++ data) : s.mem.read a = some w := by
  obtain hf | hd := List.mem_append.mp hmem
  · obtain ⟨_, _, hx, hread⟩ := hreads _ hf
    cases hx
    exact hread
  · obtain ⟨rfl, -⟩ | ⟨a', hlt, -, -, rfl⟩ | ⟨_, _, -, -, rfl⟩ := h
    · cases hd
    · cases List.mem_singleton.mp hd
      exact s.mem.read_of_lt hlt
    · cases List.mem_singleton.mp hd

/-- A write is the last access of a step. -/
theorem write_last_of_stepAccesses (hreads : ∀ x ∈ fetches, x.ReadsFrom s.mem) (hlen : data.length ≤ 1) {a : Nat} {w : Word}
    {before after : List MemAccess} (heq : fetches ++ data = before ++ MemAccess.write a w :: after) : after = [] := by
  have hsingle {front : List MemAccess} (hd : data = front ++ MemAccess.write a w :: after) : after = [] := by
    rw [hd, List.length_append, List.length_cons] at hlen
    exact List.eq_nil_of_length_eq_zero (by omega)
  obtain ⟨front, -, hd⟩ | ⟨back, hf, hd⟩ := List.append_eq_append_iff.mp heq
  · exact hsingle hd
  · cases back with
    | nil => exact hsingle (front := []) hd.symm
    | cons x back =>
      obtain ⟨rfl, -⟩ := List.cons.inj hd
      obtain ⟨_, _, hx, -⟩ := hreads (MemAccess.write a w) (by simp [hf])
      cases hx

end

/-- A step whose opcode cannot be fetched makes no access. -/
theorem State.stepAccesses_of_memWords_le_pc {s : State} (hr : s.status = .running) (hpc : 32768 ≤ s.pc.toNat) :
    s.stepAccesses = [] := by
  have hread := (s.mem.read_eq_none_iff s.pc.toNat).mpr hpc
  have hfetch : s.fetchAccesses = [] := by rw [State.fetchAccesses, hread]
  have hexecute : s.executeAccesses = [] := by rw [State.executeAccesses, State.fetchInstr, hread]
  rw [s.stepAccesses_running hr, hfetch, hexecute, ite_self, List.append_nil]

/-- Going on with a step in progress makes no access: an OUT or IN has no data access (R66, R232). -/
theorem State.stepAccesses_of_midStep {s : State} (hmid : s.midStep = true) (hfits : StepInProgressFits s) :
    s.stepAccesses = [] := by
  obtain ⟨hm, hcase⟩ := hfits hmid
  have hpc : s.pc.toNat < 32768 := Nat.lt_of_succ_lt hm
  have hexecute : s.executeAccesses = [] := by
    obtain ⟨a, rest, _, hd, -⟩ | ⟨a, rest, _, hd, -⟩ := hcase <;>
      rw [State.executeAccesses_of_ok ((s.fetchInstr_eq_ok_iff _).mpr ⟨hpc, rest, hd⟩), State.dataAccess]
  rw [s.stepAccesses_running (s.midStep_iff.mp hmid).1, if_pos hmid, hexecute, List.append_nil]

/-- The data access of an instruction that does not fault: RMEM's read, WMEM's write, and none of any other (R66). -/
theorem State.dataAccess_of_not_faulted {i : Instr} {s t : State} (h : exec i s = .next t) (ht : t.status ≠ .faulted) :
    (∀ a b addr, i = .rmem a b → ValueOf s b addr → ∃ w, s.dataAccess i = [.read addr.toNat w]) ∧
    (∀ a b addr x, i = .wmem a b → ValueOf s a addr → ValueOf s b x → s.dataAccess i = [.write addr.toNat x]) ∧
    ((∀ a b, i ≠ .rmem a b) → (∀ a b, i ≠ .wmem a b) → s.dataAccess i = []) := by
  obtain ⟨hd, -, ⟨hr, hw⟩ | ⟨f, rfl⟩⟩ | ⟨a, b, addr, rfl, hb, -, -, -, hd⟩ | ⟨a, b, addr, x, rfl, ha, hb, -, -, -, hd⟩ :=
    s.dataAccess_cases i t h
  · exact ⟨fun a b _ hi => absurd hi (hr a b), fun a b _ _ hi => absurd hi (hw a b), fun _ _ => hd⟩
  · exact absurd rfl ht
  · refine ⟨fun a' b' addr' hi hb' => ?_, nofun, fun hne => absurd rfl (hne a b)⟩
    cases hi
    cases hb.unique hb'
    exact ⟨_, hd⟩
  · refine ⟨nofun, fun a' b' addr' x' hi ha' hb' => ?_, fun _ hne => absurd rfl (hne a b)⟩
    cases hi
    cases ha.unique ha'
    cases hb.unique hb'
    exact hd

/-- A step of an illegal opcode makes the opcode fetch only (R122). -/
theorem State.fetchAccesses_of_illegal_opcode {s : State} {op : Word} (hop : s.mem.read s.pc.toNat = some op)
    (hill : 22 ≤ op.toNat) : s.fetchAccesses = s.fetchReads 0 := by
  simp [State.fetchAccesses, State.fetchReads, hop, State.fetchInstr_of_illegal_opcode hop hill, List.range_succ]

end Sys2Proof.Machine

section
open Sys2Proof Sys2Proof.Machine

/-- Settles O50: the WMEM completes by `exec_wmem_of_write_some`, and its word is read at the address, by the next fetch as
well. -/
theorem storeIsSeenByNextFetch : Obligations.StoreIsSeenByNextFetch := by
  intro s a b rest addr x hwf hr hd hm ha hb hlt
  have hpc : s.pc.toNat < 32768 := by simp only [WordsInMemory] at hm; omega
  have hread : (s.mem.poke addr.toNat x).read addr.toNat = some x := Memory.read_poke_same x hwf hlt
  refine ⟨State.advance { s with mem := s.mem.poke addr.toNat x } 3, ?_, rfl, hr, hread, fun hnext => ?_⟩
  · rw [step_of_decode hr hpc hd, exec_wmem_of_write_some hm ha hb (s.mem.write_of_lt x hlt)]
  · rw [State.fetchWindow, List.map_cons, List.head?_cons, hnext, State.advance_mem, Nat.add_zero, hread, Option.getD_some]

/-- Settles O51: the first three clauses by the shape of a step's accesses, the next two where there is none, and the last
one by the fetches of the decoded instruction and its data access. -/
theorem accessesReplayToMemory : Obligations.AccessesReplayToMemory := by
  intro s t h
  obtain ⟨fetches, data, hshape, hreads, hexecute⟩ := State.stepAccesses_shape h
  refine ⟨hshape ▸ foldl_apply_stepAccesses hreads hexecute,
    fun _ _ hmem => read_eq_of_mem_stepAccesses hreads hexecute (hshape ▸ hmem),
    fun _ _ _ _ heq => write_last_of_stepAccesses hreads hexecute.length_le (hshape.symm.trans heq),
    ?noAccess, State.stepAccesses_of_midStep, fun hr hpc => ?running⟩
  case noAccess =>
    by_cases hr : s.status = .running
    · exact fun hor => State.stepAccesses_of_memWords_le_pc hr (hor.resolve_left (not_not_intro hr))
    · exact fun _ => s.stepAccesses_stopped hr
  case running =>
    obtain ⟨hge, -⟩ | ⟨op, hop, hill, hf⟩ | ⟨i, rest, -, hd, hf⟩ := s.fetchInstr_cases
    · omega
    · refine ⟨0, [], ?_, Nat.zero_le 1, fun _ => rfl, fun _ _ _ => rfl, fun i rest hd => ?_⟩
      · rw [s.stepAccesses_running hr, State.executeAccesses_of_error hf, State.fetchAccesses_of_illegal_opcode hop hill]
      · cases hf.symm.trans ((s.fetchInstr_eq_ok_iff i).mpr ⟨hpc, rest, hd⟩)
    · have hexec : exec i s = .next t := (step_of_fetchInstr_ok hr hf).symm.trans h
      have hslots : i.length = 1 + i.slots.length := by
        rw [← List.length_map Prod.fst, i.slots_map_fst, Instr.length]
      obtain ⟨n, hn, hfetch, hall⟩ := s.fetchAccesses_eq i hpc hf
      refine ⟨n, s.dataAccess i, ?_, (State.dataAccess_executeAccesses hexec).length_le, fun ht => ?_, fun op hop hill => ?_,
        fun j rest' hd' => ?_⟩
      · rw [s.stepAccesses_running hr, State.executeAccesses_of_ok hf, hfetch]
        rfl
      · obtain ⟨hd, -⟩ | ⟨_, -, -, hst, -⟩ | ⟨_, _, -, hst, -⟩ := State.dataAccess_executeAccesses hexec
        · exact hd
        · cases hr.symm.trans (hst.symm.trans ht)
        · cases hr.symm.trans (hst.symm.trans ht)
      · cases hf.symm.trans (State.fetchInstr_of_illegal_opcode hop hill)
      · cases hd.symm.trans hd'
        refine ⟨by omega, fun hno => by rw [hall hno]; omega, fun ht => ?_⟩
        obtain ⟨hrmem, hwmem, hother⟩ := State.dataAccess_of_not_faulted hexec ht
        split
        · exact fun addr hb => hrmem _ _ addr rfl hb
        · exact fun addr x ha hb => hwmem _ _ addr x rfl ha hb
        · next hr hw => exact hother hr hw

end

/-! ### Requests while a step is in progress (60_exceptions.md, R67 and R262) -/

namespace Sys2Proof.Machine

/-- What the host does at the character ports cannot be seen in memory, the core's own state or the fetched instruction, and
leaves a step in progress. -/
theorem SameButPorts.core_eq {s t : State} (h : SameButPorts s t) :
    t.midStep = s.midStep ∧ t.mem = s.mem ∧ t.regs = s.regs ∧ t.pc = s.pc ∧ t.stack = s.stack ∧ t.status = s.status ∧
      t.faultCause = s.faultCause ∧ t.faultPc = s.faultPc ∧ t.faultInfo = s.faultInfo ∧ t.hostOutput = s.hostOutput ∧
      t.fetchInstr = s.fetchInstr := by
  obtain ⟨_, _, _, rfl⟩ := h
  exact ⟨rfl, rfl, rfl, rfl, rfl, rfl, rfl, rfl, rfl, rfl, rfl⟩

theorem SameButPorts.trans {s t u : State} (h : SameButPorts s t) (h' : SameButPorts t u) : SameButPorts s u := by
  obtain ⟨_, _, _, rfl⟩ := h
  obtain ⟨_, _, _, rfl⟩ := h'
  exact ⟨_, _, _, rfl⟩

/-- While a step is in progress, requests other than step reach the character ports only. -/
theorem SameButPorts.of_requests {s : State} (hmid : s.midStep = true) {requests : List HostRequest}
    (hstep : .step ∉ requests) : SameButPorts s (requests.foldl (fun u r => (u.serve r).1) s) := by
  induction requests generalizing s with
  | nil => exact .refl s
  | cons r rest ih =>
    obtain ⟨hr, hrest⟩ := not_or.mp (List.mem_cons.not.mp hstep)
    obtain hports | ⟨hbetween, -⟩ := s.serve_cases (Ne.symm hr)
    · exact hports.trans (ih (hports.core_eq.1.trans hmid) hrest)
    · cases hmid.symm.trans hbetween

theorem State.report_ne_waiting (s : State) : s.report ≠ .waiting := by
  unfold State.report
  cases s.status <;> exact nofun

/-- After a step request of a RUNNING core a step is in progress exactly when its instruction waits. -/
theorem State.hostStep_midStep {s : State} (hr : s.status = .running) : s.hostStep.1.midStep = s.waiting := by
  obtain ⟨t, ht⟩ := step_answers_next s
  rw [State.hostStep_running hr ht]
  cases hw : s.waiting with
  | false => exact Bool.and_false _
  | true =>
    cases ht.symm.trans (step_of_waiting hw)
    exact (State.midStep_iff _).mpr ⟨hr, rfl⟩

/-- So the reply to it is the wait. -/
theorem State.hostStep_waiting_iff {s : State} (hr : s.status = .running) : s.hostStep.2 = .waiting ↔ s.waiting = true := by
  obtain ⟨t, ht⟩ := step_answers_next s
  rw [State.hostStep_running hr ht]
  cases hw : s.waiting <;> simp [t.report_ne_waiting]

/-- A step request leaves a step in progress that is an OUT or IN whose operand has resolved. -/
theorem StepInProgressFits.of_hostStep {s : State} (h : StepInProgressFits s) : StepInProgressFits s.hostStep.1 := by
  by_cases hr : s.status = .running
  · intro hmid
    rw [State.hostStep_midStep hr] at hmid
    rw [State.hostStep_running hr (step_of_waiting hmid)]
    obtain ⟨-, hm, ⟨a, rest, x, hd, hx, -⟩ | ⟨a, rest, d, hd, hdest, -⟩⟩ := s.waiting_iff_decode.mp hmid
    · exact ⟨hm, .inl ⟨a, rest, x, hd, hx⟩⟩
    · exact ⟨hm, .inr ⟨a, rest, d, hd, hdest⟩⟩
  · rwa [s.hostStep_stopped hr]

theorem StepInProgressFits.of_not_midStep {s : State} (h : s.midStep = false) : StepInProgressFits s :=
  fun hmid => Bool.noConfusion (h.symm.trans hmid)

theorem StepInProgressFits.of_serve {s : State} (h : StepInProgressFits s) (r : HostRequest) :
    StepInProgressFits (s.serve r).1 := by
  by_cases hstep : r = .step
  · subst hstep
    exact h.of_hostStep
  · obtain ⟨_, _, _, he⟩ | ⟨hmid, ⟨-, he⟩ | ⟨bytes, -, he⟩⟩ := s.serve_cases hstep <;> rw [he]
    · exact h
    · exact .of_not_midStep rfl
    · obtain hs | hs := s.load_fst bytes <;> rw [hs] <;> exact .of_not_midStep hmid

end Sys2Proof.Machine

section
open Sys2Proof Sys2Proof.Machine

/-- Settles O60: requests in and between steps, the step request's mark and reply, `SameButPorts.of_requests` for a sequence
of requests, and that a step in progress fits at reset and after every request. -/
theorem requestsOnlyBetweenSteps : Obligations.RequestsOnlyBetweenSteps := by
  refine ⟨fun s _ hmid => ⟨s.betweenSteps_midStep _ hmid, s.betweenSteps_midStep _ hmid, s.betweenSteps_midStep _ hmid⟩,
    fun s _ hmid => ⟨s.betweenSteps_taken _ hmid, s.betweenSteps_taken _ hmid, s.betweenSteps_taken _ hmid⟩,
    fun s hr => ⟨State.hostStep_midStep hr, ?reply⟩, fun s t requests hmid hstep ht => ?sequence, .of_not_midStep rfl,
    fun _ r h => h.of_serve r⟩
  case reply =>
    rw [← State.hostStep_waiting_iff hr, State.serve, HostReply.stepped.injEq]
  case sequence =>
    subst ht
    obtain ⟨hsame, hcore⟩ := (SameButPorts.of_requests hmid hstep).core_eq
    exact ⟨hsame.trans hmid, hcore⟩

end
